-- ==== Sys2Proof/Word.lean ====
section
/-! DEFINITION. The two word widths of the machine (spec/00_scope.md R3): the byte of registers and memory, and the
16-bit word of the program counter and of addresses. -/

namespace Sys2Proof

/-- 8-bit data: `A`, `X`, `Y`, `SP`, `IR`, `T[0]`, `T[1]` and every memory byte (R3, R10). `+` and `-` on it are the
spec's `+8` and `-8`. -/
abbrev Byte := BitVec 8

/-- 16-bit data: the program counter and every address (R3, R11). `+` and `-` on it are the spec's `+16` and `-16`. -/
abbrev Word := BitVec 16

end Sys2Proof
end

