-- ==== Sys2Proof/Config.lean ====
section
/-! DEFINITION. The parameters of the machine, at the values of spec/00_scope.md R3. Every one is fixed but `hltOpcode`,
which the spec leaves as a parameter with a default. The spec leaves no value of a run free, so there is no free value here. -/

namespace Sys2Proof.Config

/-- `HLT_OPCODE` (R3, R130, decision D2): the opcode byte of HLT. DESIGN CHOICE: the spec leaves the byte open; its default, 0x02
(assumption 3). -/
def hltOpcode : Byte := 0x02#8

/-- `RAM_SIZE` (R3): 2048 bytes. -/
def ramSize : Nat := 2048

/-- `ROM_SIZE` (R3): 32768 bytes. -/
def romSize : Nat := 0x8000

/-- The first ROM address (R3, R40); below it lies the mirrored RAM. -/
def romBase : Nat := 0x8000

/-- `HEADER_SIZE` (R3): the image bytes before the ROM content. -/
def headerSize : Nat := 16

/-- `IMAGE_SIZE` (R3): 0x8010 bytes. -/
def imageSize : Nat := 0x8010

/-- The address of the low byte of the reset vector (R48). -/
def resetVectorLo : Word := 0xFFFC#16

/-- The address of the high byte of the reset vector (R48). -/
def resetVectorHi : Word := 0xFFFD#16

/-- The high byte of every stack address (R3, R49). -/
def stackPage : Byte := 0x01#8

/-- The stack pointer after reset (R3, R25). -/
def initialSp : Byte := 0xFD#8

/-- `QDEPTH` (R3, R85, decision D6): no run holds more pending micro-operations than this. -/
def queueDepth : Nat := 5

end Sys2Proof.Config
end

