-- ==== Sys2Proof/Machine/Bits.lean ====
section
/-! DEFINITION. The bit-field and extension helpers of spec/00_scope.md section 6 (notation): `hi8`, `lo8`, `{h, l}`,
`zext_16`, `sext_16`. -/

namespace Sys2Proof.Machine

/-- `hi8(w)`: bits 15:8. -/
def hi8 (w : Word) : Byte := w.extractLsb' 8 8

/-- `lo8(w)`: bits 7:0. -/
def lo8 (w : Word) : Byte := w.extractLsb' 0 8

/-- `{h, l}`: the 16-bit value `h * 256 + l`. -/
def word (h l : Byte) : Word := h ++ l

/-- `zext_16(b)`: high byte zero. -/
def zext16 (b : Byte) : Word := b.setWidth 16

/-- `sext_16(b)`: `b` when `b <= 127`, `b + 0xFF00` otherwise. -/
def sext16 (b : Byte) : Word := b.signExtend 16

end Sys2Proof.Machine
end

