-- ==== Sys2Proof/Syntax.lean ====
section
/-! DEFINITION. The instructions: one constructor per row of spec/opcode_table.json (spec/30_encoding.md R67), its operand
fields as the format of the row gives them (R61 to R65). -/

namespace Sys2Proof

/-- The 45 instructions. `imm` and `zp` are the operand byte (R62, R63), `rel` is the raw offset byte, read as two's
complement where it is used (R65), `addr` is `{addr_hi, addr_lo}` (R64). -/
inductive Instr where
  | hlt
  | clc
  | sec
  | cli
  | sei
  | clv
  | cld
  | sed
  | nop
  | txa
  | tya
  | tay
  | dey
  | iny
  | tax
  | tsx
  | dex
  | inx
  | txs
  | ldaImm (imm : Byte)
  | ldxImm (imm : Byte)
  | ldyImm (imm : Byte)
  | staZp (zp : Byte)
  | stxZp (zp : Byte)
  | styZp (zp : Byte)
  | ldaZp (zp : Byte)
  | staAbs (addr : Word)
  | stxAbs (addr : Word)
  | styAbs (addr : Word)
  | ldaAbs (addr : Word)
  | pha
  | php
  | pla
  | plp
  | bpl (rel : Byte)
  | bmi (rel : Byte)
  | bvc (rel : Byte)
  | bvs (rel : Byte)
  | bcc (rel : Byte)
  | bcs (rel : Byte)
  | bne (rel : Byte)
  | beq (rel : Byte)
  | jmpAbs (addr : Word)
  | jsr (addr : Word)
  | rts
  deriving DecidableEq, Repr

end Sys2Proof
end

