-- ==== Sys2Proof/Decode.lean ====
section
/-! DEFINITION. The opcode map of spec/30_encoding.md R67 as a list of rows, the decoder over it (total on any bytes,
rejecting by name), and after it the encoder. -/

namespace Sys2Proof

open Sys2Proof.Machine

/-- The five formats of R60. -/
inductive Format where
  | imp
  | imm
  | zp
  | rel
  | abs
  deriving DecidableEq, Repr

/-- Bytes of an instruction of the format, opcode included (R60, R71). -/
def Format.length : Format → Nat
  | .imp => 1
  | .imm => 2
  | .zp => 2
  | .rel => 2
  | .abs => 3

/-- One row of the opcode map: the whole opcode byte (decode is a lookup of the whole byte, R60), the format, and the
instruction that the operand bytes make (the first operand byte, then the second; a format with fewer ignores the rest). -/
structure OpcodeRow where
  opcode : Byte
  format : Format
  build : Byte → Byte → Instr

/-- The implied rows for halt, flags, NOP, transfers, increments (R67). -/
def impliedRows (hlt : Byte) : List OpcodeRow :=
  [ ⟨hlt, .imp, fun _ _ => .hlt⟩,
    ⟨0x18#8, .imp, fun _ _ => .clc⟩, ⟨0x38#8, .imp, fun _ _ => .sec⟩,
    ⟨0x58#8, .imp, fun _ _ => .cli⟩, ⟨0x78#8, .imp, fun _ _ => .sei⟩,
    ⟨0xB8#8, .imp, fun _ _ => .clv⟩, ⟨0xD8#8, .imp, fun _ _ => .cld⟩,
    ⟨0xF8#8, .imp, fun _ _ => .sed⟩, ⟨0xEA#8, .imp, fun _ _ => .nop⟩,
    ⟨0x8A#8, .imp, fun _ _ => .txa⟩, ⟨0x98#8, .imp, fun _ _ => .tya⟩,
    ⟨0xA8#8, .imp, fun _ _ => .tay⟩, ⟨0x88#8, .imp, fun _ _ => .dey⟩,
    ⟨0xC8#8, .imp, fun _ _ => .iny⟩, ⟨0xAA#8, .imp, fun _ _ => .tax⟩,
    ⟨0xBA#8, .imp, fun _ _ => .tsx⟩, ⟨0xCA#8, .imp, fun _ _ => .dex⟩,
    ⟨0xE8#8, .imp, fun _ _ => .inx⟩, ⟨0x9A#8, .imp, fun _ _ => .txs⟩ ]

/-- The immediate, zero-page and absolute load and store rows (R67). -/
def loadStoreRows : List OpcodeRow :=
  [ ⟨0xA9#8, .imm, fun b _ => .ldaImm b⟩, ⟨0xA2#8, .imm, fun b _ => .ldxImm b⟩,
    ⟨0xA0#8, .imm, fun b _ => .ldyImm b⟩,
    ⟨0x85#8, .zp, fun b _ => .staZp b⟩, ⟨0x86#8, .zp, fun b _ => .stxZp b⟩,
    ⟨0x84#8, .zp, fun b _ => .styZp b⟩, ⟨0xA5#8, .zp, fun b _ => .ldaZp b⟩,
    ⟨0x8D#8, .abs, fun l h => .staAbs (word h l)⟩, ⟨0x8E#8, .abs, fun l h => .stxAbs (word h l)⟩,
    ⟨0x8C#8, .abs, fun l h => .styAbs (word h l)⟩, ⟨0xAD#8, .abs, fun l h => .ldaAbs (word h l)⟩ ]

/-- The stack, branch and jump rows (R67). -/
def controlRows : List OpcodeRow :=
  [ ⟨0x48#8, .imp, fun _ _ => .pha⟩, ⟨0x08#8, .imp, fun _ _ => .php⟩,
    ⟨0x68#8, .imp, fun _ _ => .pla⟩, ⟨0x28#8, .imp, fun _ _ => .plp⟩,
    ⟨0x10#8, .rel, fun b _ => .bpl b⟩, ⟨0x30#8, .rel, fun b _ => .bmi b⟩,
    ⟨0x50#8, .rel, fun b _ => .bvc b⟩, ⟨0x70#8, .rel, fun b _ => .bvs b⟩,
    ⟨0x90#8, .rel, fun b _ => .bcc b⟩, ⟨0xB0#8, .rel, fun b _ => .bcs b⟩,
    ⟨0xD0#8, .rel, fun b _ => .bne b⟩, ⟨0xF0#8, .rel, fun b _ => .beq b⟩,
    ⟨0x4C#8, .abs, fun l h => .jmpAbs (word h l)⟩, ⟨0x20#8, .abs, fun l h => .jsr (word h l)⟩,
    ⟨0x60#8, .imp, fun _ _ => .rts⟩ ]

/-- The opcode map with `HLT_OPCODE = hlt` (R67, R3): 45 rows. UNVERIFIED: every byte but 0xA9, 0xAD and HLT's is the
conventional 6502 assignment, which the spec adopts by its decision D1 (assumption 2). -/
def opcodeRows (hlt : Byte) : List OpcodeRow := impliedRows hlt ++ loadStoreRows ++ controlRows

/-- The row of an opcode byte; none for an unknown opcode (R68). -/
def lookupRow (hlt op : Byte) : Option OpcodeRow := (opcodeRows hlt).find? fun r => r.opcode == op

/-- What the decoder reads at the head of a list of bytes. -/
inductive Decoded where
  /-- An instruction, and the bytes after it. -/
  | instr (i : Instr) (rest : List Byte)
  /-- A byte with no entry in the opcode map (R68, R131). -/
  | unknownOpcode (op : Byte)
  /-- A table opcode whose operand bytes the list does not hold; no fetch of the machine meets this, its addresses wrap. -/
  | truncated (op : Byte)
  /-- No byte at all. -/
  | empty
  deriving DecidableEq, Repr

/-- The decoder with `HLT_OPCODE = hlt`: the opcode byte alone fixes format and length (R60, R71); the low address byte
comes before the high one (R64). -/
def decodeWith (hlt : Byte) : List Byte → Decoded
  | [] => .empty
  | op :: rest =>
    match lookupRow hlt op with
    | none => .unknownOpcode op
    | some r =>
      match r.format, rest with
      | .imp, tl => .instr (r.build 0 0) tl
      | .imm, b :: tl => .instr (r.build b 0) tl
      | .zp, b :: tl => .instr (r.build b 0) tl
      | .rel, b :: tl => .instr (r.build b 0) tl
      | .abs, l :: h :: tl => .instr (r.build l h) tl
      | _, _ => .truncated op

/-- The decoder of this machine (`HLT_OPCODE` at its default). -/
def decode (bytes : List Byte) : Decoded := decodeWith Config.hltOpcode bytes

/-- The opcode byte of an instruction, written from the column "opcode byte" of R67. -/
def opcodeWith (hlt : Byte) : Instr → Byte
  | .hlt => hlt
  | .clc => 0x18#8
  | .sec => 0x38#8
  | .cli => 0x58#8
  | .sei => 0x78#8
  | .clv => 0xB8#8
  | .cld => 0xD8#8
  | .sed => 0xF8#8
  | .nop => 0xEA#8
  | .txa => 0x8A#8
  | .tya => 0x98#8
  | .tay => 0xA8#8
  | .dey => 0x88#8
  | .iny => 0xC8#8
  | .tax => 0xAA#8
  | .tsx => 0xBA#8
  | .dex => 0xCA#8
  | .inx => 0xE8#8
  | .txs => 0x9A#8
  | .ldaImm _ => 0xA9#8
  | .ldxImm _ => 0xA2#8
  | .ldyImm _ => 0xA0#8
  | .staZp _ => 0x85#8
  | .stxZp _ => 0x86#8
  | .styZp _ => 0x84#8
  | .ldaZp _ => 0xA5#8
  | .staAbs _ => 0x8D#8
  | .stxAbs _ => 0x8E#8
  | .styAbs _ => 0x8C#8
  | .ldaAbs _ => 0xAD#8
  | .pha => 0x48#8
  | .php => 0x08#8
  | .pla => 0x68#8
  | .plp => 0x28#8
  | .bpl _ => 0x10#8
  | .bmi _ => 0x30#8
  | .bvc _ => 0x50#8
  | .bvs _ => 0x70#8
  | .bcc _ => 0x90#8
  | .bcs _ => 0xB0#8
  | .bne _ => 0xD0#8
  | .beq _ => 0xF0#8
  | .jmpAbs _ => 0x4C#8
  | .jsr _ => 0x20#8
  | .rts => 0x60#8

/-- The opcode byte of an instruction on this machine. -/
def opcode (i : Instr) : Byte := opcodeWith Config.hltOpcode i

/-- The operand bytes in stream order (R60, R64: low address byte first). -/
def operandBytes : Instr → List Byte
  | .ldaImm b | .ldxImm b | .ldyImm b => [b]
  | .staZp b | .stxZp b | .styZp b | .ldaZp b => [b]
  | .bpl b | .bmi b | .bvc b | .bvs b | .bcc b | .bcs b | .bne b | .beq b => [b]
  | .staAbs w | .stxAbs w | .styAbs w | .ldaAbs w | .jmpAbs w | .jsr w => [lo8 w, hi8 w]
  | .hlt | .clc | .sec | .cli | .sei | .clv | .cld | .sed | .nop | .txa | .tya | .tay | .dey | .iny | .tax | .tsx | .dex
  | .inx | .txs | .pha | .php | .pla | .plp | .rts => []

/-- The encoder with `HLT_OPCODE = hlt`. -/
def encodeWith (hlt : Byte) (i : Instr) : List Byte := opcodeWith hlt i :: operandBytes i

/-- The encoder: the bytes of an instruction, opcode first (R60). -/
def encode (i : Instr) : List Byte := encodeWith Config.hltOpcode i

/-- The format of an instruction (R61 to R65). -/
def instrFormat : Instr → Format
  | .ldaImm _ | .ldxImm _ | .ldyImm _ => .imm
  | .staZp _ | .stxZp _ | .styZp _ | .ldaZp _ => .zp
  | .bpl _ | .bmi _ | .bvc _ | .bvs _ | .bcc _ | .bcs _ | .bne _ | .beq _ => .rel
  | .staAbs _ | .stxAbs _ | .styAbs _ | .ldaAbs _ | .jmpAbs _ | .jsr _ => .abs
  | .hlt | .clc | .sec | .cli | .sei | .clv | .cld | .sed | .nop | .txa | .tya | .tay | .dey | .iny | .tax | .tsx | .dex
  | .inx | .txs | .pha | .php | .pla | .plp | .rts => .imp

/-- The length of an instruction in bytes (R71). -/
def instrLength (i : Instr) : Nat := (instrFormat i).length

/-- The bytes of a table word as the hardware stores them: bits 7:0 first, then 15:8, then 23:16 (the longest instruction
is three bytes); every bit at or above `nbits` is 0. -/
def tableBytes (nbits w : Nat) : List Byte :=
  let v := w % 2 ^ nbits
  [BitVec.ofNat 8 v, BitVec.ofNat 8 (v / 0x100), BitVec.ofNat 8 (v / 0x10000)]

/-- The instruction the decoder reads from a word numbered as spec/opcode_table.json numbers it; none where it rejects. -/
def decodeTableWord (nbits w : Nat) : Option Instr :=
  match decode (tableBytes nbits w) with
  | .instr i _ => some i
  | .unknownOpcode _ => none
  | .truncated _ => none
  | .empty => none

end Sys2Proof
end

