-- ==== Sys2Proof/Machine/State.lean ====
section
/-! DEFINITION. The state of the machine (spec/10_state.md R26: exactly this and nothing else), the micro-operations its
queue holds (spec/40_scheduler_microops.md R113), the reasons a step can stop (none: R211), and the state after reset. -/

namespace Sys2Proof.Machine

/-- The six flags by name (R13). -/
inductive Flag where
  | c
  | z
  | i
  | d
  | v
  | n
  deriving DecidableEq, Repr

/-- The 8-bit registers a micro-operation can name (R113). -/
inductive Reg where
  | a
  | x
  | y
  | sp
  deriving DecidableEq, Repr

/-- The `+1` or `-1` of `IncDec` (R113). -/
inductive Delta where
  | plus
  | minus
  deriving DecidableEq, Repr

/-- The 26 micro-operations of R113, under its names. -/
inductive MicroOp where
  | nop
  | setFlag (f : Flag) (b : Bool)
  | transfer (dst src : Reg) (zn : Bool)
  | incDec (r : Reg) (d : Delta) (fs : Reg)
  | loadImm (r : Reg) (zn : Bool)
  | fetchLo
  | fetchHi
  | fetchHiNoInc
  | storeZp (r : Reg)
  | loadZpA
  | storeAbs (r : Reg)
  | loadAbsA
  | pushA
  | pushP
  | pullA
  | pullP
  | branchTest (f : Flag) (b : Bool)
  | fetchHiJump
  | pushPCH
  | pushPCL
  | jumpT
  | pullLo
  | pullHi
  | returnT
  | halt
  | haltUnknown
  deriving DecidableEq, Repr

/-- The flag register: six independent booleans; there is no break flag and no unused flag (R13). -/
structure Flags where
  c : Bool
  z : Bool
  i : Bool
  d : Bool
  v : Bool
  n : Bool
  deriving DecidableEq, Repr

/-- The two arrays of R20 and R21, each a list of (index, byte) with rising indexes in which an index whose byte is
`unlistedByte` is not listed. -/
structure Memory where
  ram : List Host.Cell
  rom : List Host.Cell
  deriving DecidableEq, Repr

/-- What an unlisted index reads as: 0x00. For RAM it is the reset value of R20 and R25; for ROM it is an image byte 0x00
(assumption 13). -/
def unlistedByte : Byte := 0x00#8

/-- Indexes rise strictly from `lo`, stay below `size`, and no listed byte is `unlistedByte`. -/
def cellsWf (size : Nat) : Nat → List Host.Cell → Bool
  | _, [] => true
  | lo, (k, b) :: cs => decide (lo ≤ k) && decide (k < size) && (b != unlistedByte) && cellsWf size (k + 1) cs

/-- The canonical form: RAM indexes below 2048, ROM indexes below 32768 (R20, R21). -/
def Memory.wf (m : Memory) : Bool := cellsWf Config.ramSize 0 m.ram && cellsWf Config.romSize 0 m.rom

/-- The state of R26: `A`, `X`, `Y` (R10), `PC` (R11), `SP` (R12), the flags (R13), `IR` (R17), `T[0]` and `T[1]` (R22), `Q`
head first (R23), `halted` (R18), `diag_valid` and `diag_opcode` (R19), RAM and ROM (R20, R21). -/
structure State where
  a : Byte
  x : Byte
  y : Byte
  pc : Word
  sp : Byte
  flags : Flags
  ir : Byte
  t0 : Byte
  t1 : Byte
  queue : List MicroOp
  halted : Bool
  diagValid : Bool
  diagOpcode : Byte
  mem : Memory
  deriving DecidableEq, Repr

/-- The faults: none. The machine has no fault outcome and no stuck outcome (R211, R43, R200), so the type is empty. -/
inductive Fault where
  deriving DecidableEq, Repr

/-- The refusals. -/
inductive Refusal where
  /-- Raised by an arm of `exec` whose instruction has no meaning yet; safe (nothing can be proved of it). No arm of this
  model raises it. -/
  | notModelled (mnemonic : String)
  deriving DecidableEq, Repr

/-- The three outcomes at this machine's types. -/
abbrev Outcome := Host.Outcome State Fault Refusal

/-- The machine right after `Reset` (R25, R220) with the all-zero image. DESIGN CHOICE: the spec leaves the image to the
host; this one puts no program anywhere, and its vector bytes give `PC = 0x0000` (assumption 12). -/
def State.reset : State where
  a := 0x00#8
  x := 0x00#8
  y := 0x00#8
  pc := 0x0000#16
  sp := Config.initialSp
  flags := ⟨false, false, true, false, false, false⟩
  ir := 0x00#8
  t0 := 0x00#8
  t1 := 0x00#8
  queue := []
  halted := false
  diagValid := false
  diagOpcode := 0x00#8
  mem := ⟨[], []⟩

end Sys2Proof.Machine
end

