-- ==== Sys2Proof/Machine/Flags.lean ====
section
/-! DEFINITION. Every flag computation of the spec (spec/10_state.md R13 to R16). -/

namespace Sys2Proof.Machine

/-- The value of a flag. -/
def flagGet (f : Flag) (fl : Flags) : Bool :=
  match f with
  | .c => fl.c
  | .z => fl.z
  | .i => fl.i
  | .d => fl.d
  | .v => fl.v
  | .n => fl.n

/-- `f <- b`: one flag, nothing else (R88). -/
def flagSet (f : Flag) (b : Bool) (fl : Flags) : Flags :=
  match f with
  | .c => { fl with c := b }
  | .z => { fl with z := b }
  | .i => { fl with i := b }
  | .d => { fl with d := b }
  | .v => { fl with v := b }
  | .n => { fl with n := b }

/-- `SetZN(v)`: `Z <- (v == 0); N <- v[7]`; the other four flags stay (R16). -/
def setZN (v : Byte) (fl : Flags) : Flags := { fl with z := v == 0, n := v.getLsbD 7 }

/-- `ToByte()`: `C + 2*Z + 4*I + 8*D + 16 + 32 + 64*V + 128*N` (R14). -/
def toByte (fl : Flags) : Byte :=
  BitVec.ofNat 8 (fl.c.toNat + 2 * fl.z.toNat + 4 * fl.i.toNat + 8 * fl.d.toNat + 16 + 32 + 64 * fl.v.toNat
    + 128 * fl.n.toNat)

/-- `FromByte(b)`: all six flags; bits 4 and 5 are ignored (R15). -/
def fromByte (b : Byte) : Flags where
  c := b.getLsbD 0
  z := b.getLsbD 1
  i := b.getLsbD 2
  d := b.getLsbD 3
  v := b.getLsbD 6
  n := b.getLsbD 7

end Sys2Proof.Machine
end

