-- ==== Sys2Proof/Machine/Operands.lean ====
section
/-! DEFINITION. Operand forms: the addresses and values an instruction makes of its operand bytes
(spec/30_encoding.md R66, spec/20_memory.md R49, R50). -/

namespace Sys2Proof.Machine

/-- The zero-page address `zext_16(T[0])` (R50, R66). -/
def zpAddress (lo : Byte) : Word := zext16 lo

/-- The absolute address `{T[1], T[0]}` (R66, R45: little-endian). -/
def absAddress (lo hi : Byte) : Word := word hi lo

/-- The stack address `{0x01, SP}` (R49). -/
def stackAddress (sp : Byte) : Word := word Config.stackPage sp

/-- The target of a taken branch: `PC +16 sext_16(rel8)`, with `PC` already past the offset byte (R65, R103). -/
def branchTarget (pc : Word) (rel : Byte) : Word := pc + sext16 rel

/-- The displacement is negative: `rel8 > 127` (R103). It alone decides the extra step of a taken branch; page crossing does
not (C1). -/
def isBackward (rel : Byte) : Bool := decide (127 < rel.toNat)

/-- `r +8 d` of `IncDec` (R90, R27): wraps modulo 256. -/
def stepBy (d : Delta) (b : Byte) : Byte :=
  match d with
  | .plus => b + 1
  | .minus => b - 1

end Sys2Proof.Machine
end

