-- ==== Sys2Proof/Machine/Ops.lean ====
section
/-! DEFINITION. The named operations over memory and registers that every micro-operation and every meaning is made of, and the
two halting conditions, each ONE shared operation (spec/60_exceptions.md R201, R202). -/

namespace Sys2Proof.Machine

/-! ## Cells: one array as a canonical list -/

/-- The byte at an index. -/
def cellsRead : List Host.Cell → Nat → Byte
  | [], _ => unlistedByte
  | (k, b) :: cs, i => if k = i then b else cellsRead cs i

/-- The list with the byte at index `i` set to `v`, in canonical form again: `unlistedByte` is not listed. -/
def cellsWrite (i : Nat) (v : Byte) : List Host.Cell → List Host.Cell
  | [] => if v = unlistedByte then [] else [(i, v)]
  | (k, b) :: cs =>
    if i < k then
      if v = unlistedByte then (k, b) :: cs else (i, v) :: (k, b) :: cs
    else if i = k then
      if v = unlistedByte then cs else (i, v) :: cs
    else (k, b) :: cellsWrite i v cs

/-! ## The address decoder (spec/20_memory.md) -/

/-- Does the address select ROM (R40)? -/
def isRom (addr : Word) : Bool := decide (Config.romBase ≤ addr.toNat)

/-- The RAM index of an address below 0x8000 (R40, R44: mirrored). -/
def ramIndex (addr : Word) : Nat := addr.toNat % Config.ramSize

/-- The ROM index of an address at or above 0x8000 (R40). -/
def romIndex (addr : Word) : Nat := addr.toNat - Config.romBase

/-- `MemRead(addr, 1)` (R41): total, no effect. -/
def memRead (m : Memory) (addr : Word) : Byte :=
  if isRom addr then cellsRead m.rom (romIndex addr) else cellsRead m.ram (ramIndex addr)

/-- `MemWrite(addr, 1, v)` (R42): a write at or above 0x8000 is discarded. -/
def memWrite (m : Memory) (addr : Word) (v : Byte) : Memory :=
  if isRom addr then m else { m with ram := cellsWrite (ramIndex addr) v m.ram }

/-- One byte put where a read of `addr` finds it, ROM included. No step does this: it stands for what the construction puts
there (assumption 14). -/
def memLoad (m : Memory) (addr : Word) (v : Byte) : Memory :=
  if isRom addr then { m with rom := cellsWrite (romIndex addr) v m.rom }
  else { m with ram := cellsWrite (ramIndex addr) v m.ram }

/-- A list of bytes put at `addr` and up (addresses wrap). -/
def memLoadList (m : Memory) (addr : Word) : List Byte → Memory
  | [] => m
  | b :: bs => memLoadList (memLoad m addr b) (addr + 1) bs

/-! ## Writes of one field -/

def State.withA (s : State) (v : Byte) : State := { s with a := v }
def State.withX (s : State) (v : Byte) : State := { s with x := v }
def State.withY (s : State) (v : Byte) : State := { s with y := v }
def State.withPc (s : State) (v : Word) : State := { s with pc := v }
def State.withSp (s : State) (v : Byte) : State := { s with sp := v }
def State.withFlags (s : State) (v : Flags) : State := { s with flags := v }
def State.withIr (s : State) (v : Byte) : State := { s with ir := v }
def State.withT0 (s : State) (v : Byte) : State := { s with t0 := v }
def State.withT1 (s : State) (v : Byte) : State := { s with t1 := v }
def State.withQueue (s : State) (v : List MicroOp) : State := { s with queue := v }
def State.withMem (s : State) (v : Memory) : State := { s with mem := v }

/-! ## Registers and flags -/

/-- The value of a register. -/
def regRead (r : Reg) (s : State) : Byte :=
  match r with
  | .a => s.a
  | .x => s.x
  | .y => s.y
  | .sp => s.sp

/-- `r <- v`. -/
def regWrite (r : Reg) (v : Byte) (s : State) : State :=
  match r with
  | .a => s.withA v
  | .x => s.withX v
  | .y => s.withY v
  | .sp => s.withSp v

/-- `SetZN(v)` on the state (R16). -/
def updateZN (v : Byte) (s : State) : State := s.withFlags (setZN v s.flags)

/-- `f <- b` on the state (R88). -/
def writeFlag (f : Flag) (b : Bool) (s : State) : State := s.withFlags (flagSet f b s.flags)

/-- `Transfer(dst, src, zn)` (R89). -/
def transferReg (dst src : Reg) (zn : Bool) (s : State) : State :=
  let s1 := regWrite dst (regRead src s) s
  if zn then updateZN (regRead dst s1) s1 else s1

/-- `IncDec(r, d, fs)` (R90): `fs` is read after `r` is written. -/
def countReg (r : Reg) (d : Delta) (fs : Reg) (s : State) : State :=
  let s1 := regWrite r (stepBy d (regRead r s)) s
  updateZN (regRead fs s1) s1

/-! ## The instruction stream: what one fetched byte does -/

/-- The opcode byte of a fetch (R81): `IR <- op; PC <- PC +16 1`. -/
def takeOpcode (op : Byte) (s : State) : State := (s.withIr op).withPc (s.pc + 1)

/-- The immediate byte of `LoadImm(r, zn)` (R91). -/
def takeImm (r : Reg) (zn : Bool) (b : Byte) (s : State) : State :=
  let s1 := regWrite r b (s.withPc (s.pc + 1))
  if zn then updateZN b s1 else s1

/-- The first operand byte (R92): `T[0] <- b; PC <- PC +16 1`. -/
def takeLo (b : Byte) (s : State) : State := (s.withT0 b).withPc (s.pc + 1)

/-- The second operand byte of an absolute load or store (R93): `T[1] <- b; PC <- PC +16 1`. -/
def takeHi (b : Byte) (s : State) : State := (s.withT1 b).withPc (s.pc + 1)

/-- The second operand byte of JSR (R94): `T[1] <- b`, `PC` stays (C9). -/
def takeHiNoInc (b : Byte) (s : State) : State := s.withT1 b

/-- `PC <- {T[1], T[0]}` (R107). -/
def jumpToT (s : State) : State := s.withPc (absAddress s.t0 s.t1)

/-- The second operand byte of JMP (R104): `T[1] <- b; PC <- {T[1], T[0]}`. -/
def takeHiJump (b : Byte) (s : State) : State := jumpToT (s.withT1 b)

/-! ## Data accesses -/

/-- `StoreZp(r)` (R95). -/
def storeToZp (r : Reg) (s : State) : State := s.withMem (memWrite s.mem (zpAddress s.t0) (regRead r s))

/-- `StoreAbs(r)` (R97). -/
def storeToAbs (r : Reg) (s : State) : State := s.withMem (memWrite s.mem (absAddress s.t0 s.t1) (regRead r s))

/-- `A <- v; SetZN(v)`. -/
def loadA (v : Byte) (s : State) : State := updateZN v (s.withA v)

/-- `LoadZpA` (R96). -/
def loadFromZp (s : State) : State := loadA (memRead s.mem (zpAddress s.t0)) s

/-- `LoadAbsA` (R98). -/
def loadFromAbs (s : State) : State := loadA (memRead s.mem (absAddress s.t0 s.t1)) s

/-! ## The stack -/

/-- `MemWrite({0x01, SP}, 1, b); SP <- SP -8 1` (R99, R100, R105, R106): the write comes before the decrement. -/
def pushByte (b : Byte) (s : State) : State :=
  (s.withMem (memWrite s.mem (stackAddress s.sp) b)).withSp (s.sp - 1)

/-- `SP <- SP +8 1`, the first half of every pull (R101, R102, R108, R109). -/
def raiseSp (s : State) : State := s.withSp (s.sp + 1)

/-- `MemRead({0x01, SP}, 1)`. -/
def stackTop (s : State) : Byte := memRead s.mem (stackAddress s.sp)

/-- The pull of PLA (R101), less its padding. -/
def pullToA (s : State) : State := loadA (stackTop (raiseSp s)) (raiseSp s)

/-- The pull of PLP (R102), less its padding. -/
def pullToFlags (s : State) : State := (raiseSp s).withFlags (fromByte (stackTop (raiseSp s)))

/-- `PullLo` (R108). -/
def pullToT0 (s : State) : State := (raiseSp s).withT0 (stackTop (raiseSp s))

/-- `PullHi` (R109). -/
def pullToT1 (s : State) : State := (raiseSp s).withT1 (stackTop (raiseSp s))

/-- `ReturnT` (R110): `PC <- {T[1], T[0]} +16 1`. -/
def returnToT (s : State) : State := s.withPc (absAddress s.t0 s.t1 + 1)

/-! ## Branches -/

/-- Is the condition of `BranchTest(f, b)` true? -/
def branchTaken (f : Flag) (b : Bool) (s : State) : Bool := flagGet f s.flags == b

/-- `BranchTest(f, b)` (R103), less its padding. -/
def branchIf (f : Flag) (b : Bool) (s : State) : State :=
  if branchTaken f b s then s.withPc (branchTarget s.pc s.t0) else s

/-- Does `BranchTest(f, b)` append a padding micro-op (R103: taken and backward; C1, C2)? -/
def branchPads (f : Flag) (b : Bool) (s : State) : Bool := branchTaken f b s && isBackward s.t0

/-! ## The queue -/

/-- `Q <- Q ++ [Nop, ...]`: `k` padding micro-ops at the tail (R85, R87). -/
def padQueue (k : Nat) (s : State) : State := s.withQueue (s.queue ++ List.replicate k .nop)

/-! ## The two halting conditions -/

/-- `raise Halt` (R202): `halted <- 1`, nothing else. -/
def raiseHalt (s : State) : State := { s with halted := true }

/-- `raise UnknownOpcode(op)` (R201): `halted <- 1; diag_valid <- 1; diag_opcode <- op`. Nothing is saved and control goes
nowhere (R204). There is no return from it (R207). -/
def raiseUnknownOpcode (op : Byte) (s : State) : State :=
  { s with halted := true, diagValid := true, diagOpcode := op }

end Sys2Proof.Machine
end

