-- ==== Sys2Proof/Machine/Absolute.lean ====
section
/-! DEFINITION. The absolute stores and load (spec/45_absolute.md). Each instruction has its micro-op list, which the fetch step enqueues, and its meaning as a whole: the state its last step leaves, made of the same operations with the operand bytes taken from the decoded instruction (the padding micro-ops change nothing). -/

namespace Sys2Proof.Machine

/-- The micro-ops STA absolute decodes to (R157, R82). -/
def uopsStaAbs : List MicroOp := [.fetchLo, .fetchHi, .storeAbs .a]

/-- STA absolute, `MemWrite(addr, 1, A)`, no flag; discarded at or above 0x8000 (R157). -/
def execStaAbs (addr : Word) (s : State) : Outcome :=
  .next (storeToAbs .a (takeHi (hi8 addr) (takeLo (lo8 addr) (takeOpcode (opcode (.staAbs addr)) s))))

/-- The micro-ops STX absolute decodes to (R158, R82). -/
def uopsStxAbs : List MicroOp := [.fetchLo, .fetchHi, .storeAbs .x]

/-- STX absolute, `MemWrite(addr, 1, X)`, no flag; discarded at or above 0x8000 (R158). -/
def execStxAbs (addr : Word) (s : State) : Outcome :=
  .next (storeToAbs .x (takeHi (hi8 addr) (takeLo (lo8 addr) (takeOpcode (opcode (.stxAbs addr)) s))))

/-- The micro-ops STY absolute decodes to (R159, R82). -/
def uopsStyAbs : List MicroOp := [.fetchLo, .fetchHi, .storeAbs .y]

/-- STY absolute, `MemWrite(addr, 1, Y)`, no flag; discarded at or above 0x8000 (R159). -/
def execStyAbs (addr : Word) (s : State) : Outcome :=
  .next (storeToAbs .y (takeHi (hi8 addr) (takeLo (lo8 addr) (takeOpcode (opcode (.styAbs addr)) s))))

/-- The micro-ops LDA absolute decodes to (R160, R82). -/
def uopsLdaAbs : List MicroOp := [.fetchLo, .fetchHi, .loadAbsA]

/-- LDA absolute, `v <- MemRead(addr, 1); A <- v; SetZN(v)` (R160). -/
def execLdaAbs (addr : Word) (s : State) : Outcome :=
  .next (loadFromAbs (takeHi (hi8 addr) (takeLo (lo8 addr) (takeOpcode (opcode (.ldaAbs addr)) s))))

end Sys2Proof.Machine
end

