-- ==== Sys2Proof/Machine/Branch.lean ====
section
/-! DEFINITION. The conditional branches (spec/47_branches.md). Each instruction has its micro-op list, which the fetch step enqueues, and its meaning as a whole: the state its last step leaves, made of the same operations with the operand bytes taken from the decoded instruction (the padding micro-ops change nothing). -/

namespace Sys2Proof.Machine

/-- The micro-ops BPL decodes to (R165, R82). -/
def uopsBpl : List MicroOp := [.fetchLo, .branchTest .n false]

/-- BPL, branch when N = 0 (R165). -/
def execBpl (rel : Byte) (s : State) : Outcome :=
  .next (branchIf .n false (takeLo rel (takeOpcode (opcode (.bpl rel)) s)))

/-- The micro-ops BMI decodes to (R166, R82). -/
def uopsBmi : List MicroOp := [.fetchLo, .branchTest .n true]

/-- BMI, branch when N = 1 (R166). -/
def execBmi (rel : Byte) (s : State) : Outcome :=
  .next (branchIf .n true (takeLo rel (takeOpcode (opcode (.bmi rel)) s)))

/-- The micro-ops BVC decodes to (R167, R82). -/
def uopsBvc : List MicroOp := [.fetchLo, .branchTest .v false]

/-- BVC, branch when V = 0 (R167). -/
def execBvc (rel : Byte) (s : State) : Outcome :=
  .next (branchIf .v false (takeLo rel (takeOpcode (opcode (.bvc rel)) s)))

/-- The micro-ops BVS decodes to (R168, R82). -/
def uopsBvs : List MicroOp := [.fetchLo, .branchTest .v true]

/-- BVS, branch when V = 1 (R168). -/
def execBvs (rel : Byte) (s : State) : Outcome :=
  .next (branchIf .v true (takeLo rel (takeOpcode (opcode (.bvs rel)) s)))

/-- The micro-ops BCC decodes to (R169, R82). -/
def uopsBcc : List MicroOp := [.fetchLo, .branchTest .c false]

/-- BCC, branch when C = 0 (R169). -/
def execBcc (rel : Byte) (s : State) : Outcome :=
  .next (branchIf .c false (takeLo rel (takeOpcode (opcode (.bcc rel)) s)))

/-- The micro-ops BCS decodes to (R170, R82). -/
def uopsBcs : List MicroOp := [.fetchLo, .branchTest .c true]

/-- BCS, branch when C = 1 (R170). -/
def execBcs (rel : Byte) (s : State) : Outcome :=
  .next (branchIf .c true (takeLo rel (takeOpcode (opcode (.bcs rel)) s)))

/-- The micro-ops BNE decodes to (R171, R82). -/
def uopsBne : List MicroOp := [.fetchLo, .branchTest .z false]

/-- BNE, branch when Z = 0 (R171). -/
def execBne (rel : Byte) (s : State) : Outcome :=
  .next (branchIf .z false (takeLo rel (takeOpcode (opcode (.bne rel)) s)))

/-- The micro-ops BEQ decodes to (R172, R82). -/
def uopsBeq : List MicroOp := [.fetchLo, .branchTest .z true]

/-- BEQ, branch when Z = 1 (R172). -/
def execBeq (rel : Byte) (s : State) : Outcome :=
  .next (branchIf .z true (takeLo rel (takeOpcode (opcode (.beq rel)) s)))

end Sys2Proof.Machine
end

