-- ==== Sys2Proof/Machine/Halt.lean ====
section
/-! DEFINITION. The halt instruction (spec/41_halt.md). Each instruction has its micro-op list, which the fetch step enqueues, and its meaning as a whole: the state its last step leaves, made of the same operations with the operand bytes taken from the decoded instruction (the padding micro-ops change nothing). -/

namespace Sys2Proof.Machine

/-- The micro-ops HLT decodes to (R130, R82). -/
def uopsHlt : List MicroOp := [.halt]

/-- HLT, halt: `halted <- 1`, the diagnostic register stays (R130). -/
def execHlt (s : State) : Outcome :=
  .next (raiseHalt (takeOpcode (opcode .hlt) s))

end Sys2Proof.Machine
end

