-- ==== Sys2Proof/Machine/Immediate.lean ====
section
/-! DEFINITION. The immediate loads (spec/43_immediate_loads.md). Each instruction has its micro-op list, which the fetch step enqueues, and its meaning as a whole: the state its last step leaves, made of the same operations with the operand bytes taken from the decoded instruction (the padding micro-ops change nothing). -/

namespace Sys2Proof.Machine

/-- The micro-ops LDA# decodes to (R150, R82). -/
def uopsLdaImm : List MicroOp := [.loadImm .a true]

/-- LDA#, `A <- imm8; SetZN(imm8)` (R150). -/
def execLdaImm (imm : Byte) (s : State) : Outcome :=
  .next (takeImm .a true imm (takeOpcode (opcode (.ldaImm imm)) s))

/-- The micro-ops LDX# decodes to (R151, R82). -/
def uopsLdxImm : List MicroOp := [.loadImm .x false]

/-- LDX#, `X <- imm8`, no flag: a deviation the spec keeps (C3) (R151). -/
def execLdxImm (imm : Byte) (s : State) : Outcome :=
  .next (takeImm .x false imm (takeOpcode (opcode (.ldxImm imm)) s))

/-- The micro-ops LDY# decodes to (R152, R82). -/
def uopsLdyImm : List MicroOp := [.loadImm .y false]

/-- LDY#, `Y <- imm8`, no flag: a deviation the spec keeps (C3) (R152). -/
def execLdyImm (imm : Byte) (s : State) : Outcome :=
  .next (takeImm .y false imm (takeOpcode (opcode (.ldyImm imm)) s))

end Sys2Proof.Machine
end

