-- ==== Sys2Proof/Machine/Implied.lean ====
section
/-! DEFINITION. The no-operand flag, transfer, increment and decrement instructions (spec/42_implied_register_flag_ops.md). Each instruction has its micro-op list, which the fetch step enqueues, and its meaning as a whole: the state its last step leaves, made of the same operations with the operand bytes taken from the decoded instruction (the padding micro-ops change nothing). -/

namespace Sys2Proof.Machine

/-- The micro-ops CLC decodes to (R132, R82). -/
def uopsClc : List MicroOp := [.setFlag .c false]

/-- CLC, clear carry (R132). -/
def execClc (s : State) : Outcome :=
  .next (writeFlag .c false (takeOpcode (opcode .clc) s))

/-- The micro-ops SEC decodes to (R133, R82). -/
def uopsSec : List MicroOp := [.setFlag .c true]

/-- SEC, set carry (R133). -/
def execSec (s : State) : Outcome :=
  .next (writeFlag .c true (takeOpcode (opcode .sec) s))

/-- The micro-ops CLI decodes to (R134, R82). -/
def uopsCli : List MicroOp := [.setFlag .i false]

/-- CLI, clear interrupt-disable (R134). -/
def execCli (s : State) : Outcome :=
  .next (writeFlag .i false (takeOpcode (opcode .cli) s))

/-- The micro-ops SEI decodes to (R135, R82). -/
def uopsSei : List MicroOp := [.setFlag .i true]

/-- SEI, set interrupt-disable (R135). -/
def execSei (s : State) : Outcome :=
  .next (writeFlag .i true (takeOpcode (opcode .sei) s))

/-- The micro-ops CLV decodes to (R136, R82). -/
def uopsClv : List MicroOp := [.setFlag .v false]

/-- CLV, clear overflow (R136). -/
def execClv (s : State) : Outcome :=
  .next (writeFlag .v false (takeOpcode (opcode .clv) s))

/-- The micro-ops CLD decodes to (R137, R82). -/
def uopsCld : List MicroOp := [.setFlag .d false]

/-- CLD, clear decimal (R137). -/
def execCld (s : State) : Outcome :=
  .next (writeFlag .d false (takeOpcode (opcode .cld) s))

/-- The micro-ops SED decodes to (R138, R82). -/
def uopsSed : List MicroOp := [.setFlag .d true]

/-- SED, set decimal (R138). -/
def execSed (s : State) : Outcome :=
  .next (writeFlag .d true (takeOpcode (opcode .sed) s))

/-- The micro-ops NOP decodes to (R139, R82). -/
def uopsNop : List MicroOp := [.nop]

/-- NOP, no operation: only the fetch (R139). -/
def execNop (s : State) : Outcome :=
  .next (takeOpcode (opcode .nop) s)

/-- The micro-ops TXA decodes to (R140, R82). -/
def uopsTxa : List MicroOp := [.transfer .a .x true]

/-- TXA, `A <- X; SetZN(A)` (R140). -/
def execTxa (s : State) : Outcome :=
  .next (transferReg .a .x true (takeOpcode (opcode .txa) s))

/-- The micro-ops TYA decodes to (R141, R82). -/
def uopsTya : List MicroOp := [.transfer .a .y true]

/-- TYA, `A <- Y; SetZN(A)` (R141). -/
def execTya (s : State) : Outcome :=
  .next (transferReg .a .y true (takeOpcode (opcode .tya) s))

/-- The micro-ops TAY decodes to (R142, R82). -/
def uopsTay : List MicroOp := [.transfer .y .a true]

/-- TAY, `Y <- A; SetZN(Y)` (R142). -/
def execTay (s : State) : Outcome :=
  .next (transferReg .y .a true (takeOpcode (opcode .tay) s))

/-- The micro-ops TAX decodes to (R145, R82). -/
def uopsTax : List MicroOp := [.transfer .x .a true]

/-- TAX, `X <- A; SetZN(X)` (R145). -/
def execTax (s : State) : Outcome :=
  .next (transferReg .x .a true (takeOpcode (opcode .tax) s))

/-- The micro-ops TSX decodes to (R146, R82). -/
def uopsTsx : List MicroOp := [.transfer .x .sp true]

/-- TSX, `X <- SP; SetZN(X)` (R146). -/
def execTsx (s : State) : Outcome :=
  .next (transferReg .x .sp true (takeOpcode (opcode .tsx) s))

/-- The micro-ops TXS decodes to (R149, R82). -/
def uopsTxs : List MicroOp := [.transfer .sp .x false]

/-- TXS, `SP <- X`, no flag (R149). -/
def execTxs (s : State) : Outcome :=
  .next (transferReg .sp .x false (takeOpcode (opcode .txs) s))

/-- The micro-ops DEY decodes to (R143, R82). -/
def uopsDey : List MicroOp := [.incDec .y .minus .x]

/-- DEY, `Y <- Y -8 1; SetZN(X)`: the flags come from X, a deviation the spec keeps (C4) (R143). -/
def execDey (s : State) : Outcome :=
  .next (countReg .y .minus .x (takeOpcode (opcode .dey) s))

/-- The micro-ops INY decodes to (R144, R82). -/
def uopsIny : List MicroOp := [.incDec .y .plus .y]

/-- INY, `Y <- Y +8 1; SetZN(Y)` (R144). -/
def execIny (s : State) : Outcome :=
  .next (countReg .y .plus .y (takeOpcode (opcode .iny) s))

/-- The micro-ops DEX decodes to (R147, R82). -/
def uopsDex : List MicroOp := [.incDec .x .minus .x]

/-- DEX, `X <- X -8 1; SetZN(X)` (R147). -/
def execDex (s : State) : Outcome :=
  .next (countReg .x .minus .x (takeOpcode (opcode .dex) s))

/-- The micro-ops INX decodes to (R148, R82). -/
def uopsInx : List MicroOp := [.incDec .x .plus .x]

/-- INX, `X <- X +8 1; SetZN(X)` (R148). -/
def execInx (s : State) : Outcome :=
  .next (countReg .x .plus .x (takeOpcode (opcode .inx) s))

end Sys2Proof.Machine
end

