-- ==== Sys2Proof/Machine/Jump.lean ====
section
/-! DEFINITION. Jump, subroutine call and return (spec/48_jumps_subroutines.md). Each instruction has its micro-op list, which the fetch step enqueues, and its meaning as a whole: the state its last step leaves, made of the same operations with the operand bytes taken from the decoded instruction (the padding micro-ops change nothing). -/

namespace Sys2Proof.Machine

/-- `PushPCH; PushPCL; JumpT` (R105, R106, R107), the last three steps of JSR. -/
def jsrCore (s : State) : State := jumpToT (pushByte (lo8 s.pc) (pushByte (hi8 s.pc) s))

/-- The micro-ops JMP absolute decodes to (R173, R82). -/
def uopsJmpAbs : List MicroOp := [.fetchLo, .fetchHiJump]

/-- JMP absolute, `PC <- addr` (R173). -/
def execJmpAbs (addr : Word) (s : State) : Outcome :=
  .next (takeHiJump (hi8 addr) (takeLo (lo8 addr) (takeOpcode (opcode (.jmpAbs addr)) s)))

/-- The micro-ops JSR decodes to (R174, R82). -/
def uopsJsr : List MicroOp := [.fetchLo, .fetchHiNoInc, .pushPCH, .pushPCL, .jumpT]

/-- JSR, push the address of its own last byte, high byte first, and jump (R174). -/
def execJsr (addr : Word) (s : State) : Outcome :=
  .next (jsrCore (takeHiNoInc (hi8 addr) (takeLo (lo8 addr) (takeOpcode (opcode (.jsr addr)) s))))

/-- The micro-ops RTS decodes to (R175, R82). -/
def uopsRts : List MicroOp := [.pullLo, .pullHi, .returnT, .nop, .nop]

/-- RTS, pull low, pull high, `PC <- {hi, lo} +16 1`; two padding micro-ops follow (C6) (R175). -/
def execRts (s : State) : Outcome :=
  .next (returnToT (pullToT1 (pullToT0 (takeOpcode (opcode .rts) s))))

end Sys2Proof.Machine
end

