-- ==== Sys2Proof/Machine/Stack.lean ====
section
/-! DEFINITION. The stack pushes and pulls (spec/46_stack.md). Each instruction has its micro-op list, which the fetch step enqueues, and its meaning as a whole: the state its last step leaves, made of the same operations with the operand bytes taken from the decoded instruction (the padding micro-ops change nothing). -/

namespace Sys2Proof.Machine

/-- The micro-ops PHA decodes to (R161, R82). -/
def uopsPha : List MicroOp := [.pushA]

/-- PHA, push A (R161). -/
def execPha (s : State) : Outcome :=
  .next (pushByte s.a (takeOpcode (opcode .pha) s))

/-- The micro-ops PHP decodes to (R162, R82). -/
def uopsPhp : List MicroOp := [.pushP]

/-- PHP, push `ToByte()` (R162). -/
def execPhp (s : State) : Outcome :=
  .next (pushByte (toByte s.flags) (takeOpcode (opcode .php) s))

/-- The micro-ops PLA decodes to (R163, R82). -/
def uopsPla : List MicroOp := [.pullA]

/-- PLA, pull A and set Z, N from it (R163). -/
def execPla (s : State) : Outcome :=
  .next (pullToA (takeOpcode (opcode .pla) s))

/-- The micro-ops PLP decodes to (R164, R82). -/
def uopsPlp : List MicroOp := [.pullP]

/-- PLP, pull all six flags (R164). -/
def execPlp (s : State) : Outcome :=
  .next (pullToFlags (takeOpcode (opcode .plp) s))

end Sys2Proof.Machine
end

