-- ==== Sys2Proof/Machine/ZeroPage.lean ====
section
/-! DEFINITION. The zero-page stores and load (spec/44_zero_page.md). Each instruction has its micro-op list, which the fetch step enqueues, and its meaning as a whole: the state its last step leaves, made of the same operations with the operand bytes taken from the decoded instruction (the padding micro-ops change nothing). -/

namespace Sys2Proof.Machine

/-- The micro-ops STA zero page decodes to (R153, R82). -/
def uopsStaZp : List MicroOp := [.fetchLo, .storeZp .a]

/-- STA zero page, `MemWrite(zext_16(zpaddr), 1, A)`, no flag (R153). -/
def execStaZp (zp : Byte) (s : State) : Outcome :=
  .next (storeToZp .a (takeLo zp (takeOpcode (opcode (.staZp zp)) s)))

/-- The micro-ops STX zero page decodes to (R154, R82). -/
def uopsStxZp : List MicroOp := [.fetchLo, .storeZp .x]

/-- STX zero page, `MemWrite(zext_16(zpaddr), 1, X)`, no flag (R154). -/
def execStxZp (zp : Byte) (s : State) : Outcome :=
  .next (storeToZp .x (takeLo zp (takeOpcode (opcode (.stxZp zp)) s)))

/-- The micro-ops STY zero page decodes to (R155, R82). -/
def uopsStyZp : List MicroOp := [.fetchLo, .storeZp .y]

/-- STY zero page, `MemWrite(zext_16(zpaddr), 1, Y)`, no flag (R155). -/
def execStyZp (zp : Byte) (s : State) : Outcome :=
  .next (storeToZp .y (takeLo zp (takeOpcode (opcode (.styZp zp)) s)))

/-- The micro-ops LDA zero page decodes to (R156, R82). -/
def uopsLdaZp : List MicroOp := [.fetchLo, .loadZpA]

/-- LDA zero page, `v <- MemRead(zext_16(zpaddr), 1); A <- v; SetZN(v)` (R156). -/
def execLdaZp (zp : Byte) (s : State) : Outcome :=
  .next (loadFromZp (takeLo zp (takeOpcode (opcode (.ldaZp zp)) s)))

end Sys2Proof.Machine
end

