-- ==== Sys2Proof/Machine/MicroOps.lean ====
section
/-! DEFINITION. `Exec(m)`: what each of the 26 micro-operations does in its one step (spec/40_scheduler_microops.md R83, R87 to
R112). The step has already taken `m` off the queue. -/

namespace Sys2Proof.Machine

/-- The byte of the instruction stream at `PC`. -/
def streamByte (s : State) : Byte := memRead s.mem s.pc

/-- `Exec(m)` (R83). State not named in a micro-op's rule is unchanged by it (R113). -/
def execMicro (m : MicroOp) (s : State) : State :=
  match m with
  | .nop => s
  | .setFlag f b => writeFlag f b s
  | .transfer dst src zn => transferReg dst src zn s
  | .incDec r d fs => countReg r d fs s
  | .loadImm r zn => takeImm r zn (streamByte s) s
  | .fetchLo => takeLo (streamByte s) s
  | .fetchHi => takeHi (streamByte s) s
  | .fetchHiNoInc => takeHiNoInc (streamByte s) s
  | .storeZp r => storeToZp r s
  | .loadZpA => loadFromZp s
  | .storeAbs r => storeToAbs r s
  | .loadAbsA => loadFromAbs s
  | .pushA => padQueue 1 (pushByte s.a s)
  | .pushP => padQueue 1 (pushByte (toByte s.flags) s)
  | .pullA => padQueue 2 (pullToA s)
  | .pullP => padQueue 2 (pullToFlags s)
  | .branchTest f b => if branchPads f b s then padQueue 1 (branchIf f b s) else branchIf f b s
  | .fetchHiJump => takeHiJump (streamByte s) s
  | .pushPCH => pushByte (hi8 s.pc) s
  | .pushPCL => pushByte (lo8 s.pc) s
  | .jumpT => jumpToT s
  | .pullLo => pullToT0 s
  | .pullHi => pullToT1 s
  | .returnT => returnToT s
  | .halt => raiseHalt s
  | .haltUnknown => raiseUnknownOpcode s.ir s

end Sys2Proof.Machine
end

