-- ==== Sys2Proof/Machine/Schedule.lean ====
section
/-! DEFINITION. The instruction state machine: the decode lists, the one-cycle step, and beside it the same machine one
instruction at a time (spec/40_scheduler_microops.md R80 to R86, spec/70_reset_and_hazards.md R227). -/

namespace Sys2Proof.Machine

/-- `Decode` by instruction (R82): the ordered list of micro-ops. Operand bytes play no part in it. -/
def microOps : Instr → List MicroOp
  | .hlt => uopsHlt
  | .clc => uopsClc
  | .sec => uopsSec
  | .cli => uopsCli
  | .sei => uopsSei
  | .clv => uopsClv
  | .cld => uopsCld
  | .sed => uopsSed
  | .nop => uopsNop
  | .txa => uopsTxa
  | .tya => uopsTya
  | .tay => uopsTay
  | .dey => uopsDey
  | .iny => uopsIny
  | .tax => uopsTax
  | .tsx => uopsTsx
  | .dex => uopsDex
  | .inx => uopsInx
  | .txs => uopsTxs
  | .ldaImm _ => uopsLdaImm
  | .ldxImm _ => uopsLdxImm
  | .ldyImm _ => uopsLdyImm
  | .staZp _ => uopsStaZp
  | .stxZp _ => uopsStxZp
  | .styZp _ => uopsStyZp
  | .ldaZp _ => uopsLdaZp
  | .staAbs _ => uopsStaAbs
  | .stxAbs _ => uopsStxAbs
  | .styAbs _ => uopsStyAbs
  | .ldaAbs _ => uopsLdaAbs
  | .pha => uopsPha
  | .php => uopsPhp
  | .pla => uopsPla
  | .plp => uopsPlp
  | .bpl _ => uopsBpl
  | .bmi _ => uopsBmi
  | .bvc _ => uopsBvc
  | .bvs _ => uopsBvs
  | .bcc _ => uopsBcc
  | .bcs _ => uopsBcs
  | .bne _ => uopsBne
  | .beq _ => uopsBeq
  | .jmpAbs _ => uopsJmpAbs
  | .jsr _ => uopsJsr
  | .rts => uopsRts

/-- `Decode(op)` (R82): the list for an opcode byte, `[HaltUnknown]` for a byte with no entry (R131). It reads the byte only. -/
def decodeQueue (op : Byte) : List MicroOp :=
  match lookupRow Config.hltOpcode op with
  | some r => microOps (r.build 0 0)
  | none => [.haltUnknown]

/-- `Fetch()` (R81), then `Q <- Decode(IR)` (R80, R82). -/
def fetchDecode (s : State) : State :=
  let s1 := takeOpcode (streamByte s) s
  s1.withQueue (decodeQueue s1.ir)

/-- `Step()` (R80): one clock cycle. While halted nothing changes (decision D4, assumption 5). -/
def clockCycle (s : State) : State :=
  if s.halted then s
  else
    match s.queue with
    | [] => fetchDecode s
    | m :: q => execMicro m (s.withQueue q)

/-- An instruction boundary of a running machine: the next step is a fetch (R86). -/
def atBoundary (s : State) : Bool := !s.halted && s.queue.isEmpty

/-- The bytes of the instruction stream from `PC` on, as many as the longest instruction has (R60); addresses wrap (R46). -/
def streamBytes (s : State) : List Byte := [memRead s.mem s.pc, memRead s.mem (s.pc + 1), memRead s.mem (s.pc + 2)]

/-- What the decoder reads at `PC`. -/
def decodeAtPc (s : State) : Decoded := decode (streamBytes s)

/-- What an unknown opcode does as a whole (R131): the fetch, then `raise UnknownOpcode(IR)`. -/
def execUnknown (op : Byte) (s : State) : Outcome := .next (raiseUnknownOpcode op (takeOpcode op s))

/-- The steps of a branch (R227): 4 when taken backward, else 3. The flags are those before the instruction. -/
def branchCycles (f : Flag) (b : Bool) (rel : Byte) (s : State) : Nat :=
  if branchTaken f b s && isBackward rel then 4 else 3

/-- The number of steps of an instruction that starts at `s` (R227), its fetch step and its last micro-op included. -/
def cycles (i : Instr) (s : State) : Nat :=
  match i with
  | .hlt | .clc | .sec | .cli | .sei | .clv | .cld | .sed | .nop | .txa | .tya | .tay | .dey | .iny | .tax | .tsx | .dex
  | .inx | .txs | .ldaImm _ | .ldxImm _ | .ldyImm _ => 2
  | .staZp _ | .stxZp _ | .styZp _ | .ldaZp _ | .pha | .php | .jmpAbs _ => 3
  | .staAbs _ | .stxAbs _ | .styAbs _ | .ldaAbs _ | .pla | .plp => 4
  | .jsr _ | .rts => 6
  | .bpl rel => branchCycles .n false rel s
  | .bmi rel => branchCycles .n true rel s
  | .bvc rel => branchCycles .v false rel s
  | .bvs rel => branchCycles .v true rel s
  | .bcc rel => branchCycles .c false rel s
  | .bcs rel => branchCycles .c true rel s
  | .bne rel => branchCycles .z false rel s
  | .beq rel => branchCycles .z true rel s

/-- The machine one instruction at a time, the second form R227 allows: from a boundary, the whole of the instruction at
`PC`; while halted nothing. (Between boundaries the machine is inside an instruction and only `clockCycle` says what
happens; this function is used from boundaries.) -/
def instructionStep (s : State) : Outcome :=
  if s.halted then .next s
  else
    match decodeAtPc s with
    | .instr i _ => exec i s
    | .unknownOpcode op => execUnknown op s
    | .truncated op => execUnknown op s
    | .empty => .next s

/-- The steps `instructionStep` stands for. -/
def instructionCycles (s : State) : Nat :=
  if s.halted then 0
  else
    match decodeAtPc s with
    | .instr i _ => cycles i s
    | .unknownOpcode _ => 2
    | .truncated _ => 2
    | .empty => 0

end Sys2Proof.Machine
end

