-- ==== Sys2Proof/Machine/Step.lean ====
section
/-! DEFINITION. The step of the machine, and where a word is put so that the next step fetches it. -/

namespace Sys2Proof.Machine

/-- `Step()` (spec/40_scheduler_microops.md R80): one clock cycle. It always answers a next state (R211). -/
def step (s : State) : Host.Outcome State Fault Refusal := .next (clockCycle s)

/-- The state in which the next step is the fetch of the given table word: its three bytes stand where reads of `PC`, `PC +16 1`
and `PC +16 2` find them, in RAM or ROM, and the machine is running at an instruction boundary. In a state that is already
at a boundary only memory changes (assumption 14). -/
def State.withFetchWord (s : State) (nbits w : Nat) : State :=
  { s with mem := memLoadList s.mem s.pc (tableBytes nbits w), queue := [], halted := false }

end Sys2Proof.Machine
end

