-- ==== Sys2Proof/Machine/Access.lean ====
section
/-! DEFINITION. The one memory access of a step (spec/20_memory.md R47, spec/40_scheduler_microops.md R114) and the accesses
of a whole instruction (spec/70_reset_and_hazards.md R227). -/

namespace Sys2Proof.Machine

/-- One access of one byte. -/
inductive Access where
  | read (addr : Word)
  | write (addr : Word) (v : Byte)
  deriving DecidableEq, Repr

/-- Is the access a read? -/
def Access.isRead : Access → Bool
  | .read _ => true
  | .write _ _ => false

/-- Is the access a write? -/
def Access.isWrite : Access → Bool
  | .read _ => false
  | .write _ _ => true

/-- The access of a micro-op that runs at `s` (the table of R114). -/
def microAccess (m : MicroOp) (s : State) : Option Access :=
  match m with
  | .loadImm _ _ | .fetchLo | .fetchHi | .fetchHiNoInc | .fetchHiJump => some (.read s.pc)
  | .loadZpA => some (.read (zpAddress s.t0))
  | .loadAbsA => some (.read (absAddress s.t0 s.t1))
  | .storeZp r => some (.write (zpAddress s.t0) (regRead r s))
  | .storeAbs r => some (.write (absAddress s.t0 s.t1) (regRead r s))
  | .pushA => some (.write (stackAddress s.sp) s.a)
  | .pushP => some (.write (stackAddress s.sp) (toByte s.flags))
  | .pushPCH => some (.write (stackAddress s.sp) (hi8 s.pc))
  | .pushPCL => some (.write (stackAddress s.sp) (lo8 s.pc))
  | .pullA | .pullP | .pullLo | .pullHi => some (.read (stackAddress (s.sp + 1)))
  | .nop | .setFlag _ _ | .transfer _ _ _ | .incDec _ _ _ | .branchTest _ _ | .jumpT | .returnT | .halt | .haltUnknown => none

/-- The access of the step taken at `s`: none while halted, the opcode read of a fetch, else the micro-op's. -/
def stepAccess (s : State) : Option Access :=
  if s.halted then none
  else
    match s.queue with
    | [] => some (.read s.pc)
    | m :: _ => microAccess m s

/-- The accesses of the next `k` steps, in order. -/
def accessTrace : Nat → State → List Access
  | 0, _ => []
  | k + 1, s => (stepAccess s).toList ++ accessTrace k (clockCycle s)

/-- The number of memory accesses of an instruction (the column "of which memory accesses" of R227). -/
def accessCount : Instr → Nat
  | .hlt | .clc | .sec | .cli | .sei | .clv | .cld | .sed | .nop | .txa | .tya | .tay | .dey | .iny | .tax | .tsx | .dex
  | .inx | .txs => 1
  | .ldaImm _ | .ldxImm _ | .ldyImm _ | .pha | .php | .pla | .plp => 2
  | .bpl _ | .bmi _ | .bvc _ | .bvs _ | .bcc _ | .bcs _ | .bne _ | .beq _ => 2
  | .staZp _ | .stxZp _ | .styZp _ | .ldaZp _ | .jmpAbs _ | .rts => 3
  | .staAbs _ | .stxAbs _ | .styAbs _ | .ldaAbs _ => 4
  | .jsr _ => 5

end Sys2Proof.Machine
end

