-- ==== Sys2Proof/Machine/Assembly.lean ====
section
/-! DEFINITION. The assembler's side of spec/30_encoding.md R72: how an instruction is written, and how a branch target becomes
an offset byte. Writing only; nothing here has an effect on the machine (decision D15). -/

namespace Sys2Proof.Machine

/-- One hexadecimal digit. -/
def hexDigit (n : Nat) : Char :=
  ['0', '1', '2', '3', '4', '5', '6', '7', '8', '9', 'A', 'B', 'C', 'D', 'E', 'F'].getD n '?'

/-- `nn`: two hexadecimal digits. -/
def hex2 (b : Byte) : String := String.ofList [hexDigit (b.toNat / 16), hexDigit (b.toNat % 16)]

/-- `nnnn`: four hexadecimal digits. -/
def hex4 (w : Word) : String := hex2 (hi8 w) ++ hex2 (lo8 w)

/-- The mnemonic in capitals (R72); the form is in the operand. -/
def mnemonic : Instr → String
  | .hlt => "HLT"
  | .clc => "CLC"
  | .sec => "SEC"
  | .cli => "CLI"
  | .sei => "SEI"
  | .clv => "CLV"
  | .cld => "CLD"
  | .sed => "SED"
  | .nop => "NOP"
  | .txa => "TXA"
  | .tya => "TYA"
  | .tay => "TAY"
  | .dey => "DEY"
  | .iny => "INY"
  | .tax => "TAX"
  | .tsx => "TSX"
  | .dex => "DEX"
  | .inx => "INX"
  | .txs => "TXS"
  | .ldaImm _ | .ldaZp _ | .ldaAbs _ => "LDA"
  | .ldxImm _ => "LDX"
  | .ldyImm _ => "LDY"
  | .staZp _ | .staAbs _ => "STA"
  | .stxZp _ | .stxAbs _ => "STX"
  | .styZp _ | .styAbs _ => "STY"
  | .pha => "PHA"
  | .php => "PHP"
  | .pla => "PLA"
  | .plp => "PLP"
  | .bpl _ => "BPL"
  | .bmi _ => "BMI"
  | .bvc _ => "BVC"
  | .bvs _ => "BVS"
  | .bcc _ => "BCC"
  | .bcs _ => "BCS"
  | .bne _ => "BNE"
  | .beq _ => "BEQ"
  | .jmpAbs _ => "JMP"
  | .jsr _ => "JSR"
  | .rts => "RTS"

/-- The address a branch at `a` names (R65): `a +16 2 +16 sext_16(rel8)`. -/
def branchDestination (a : Word) (rel : Byte) : Word := a + 2 + sext16 rel

/-- The operand of an instruction at address `a` (R72): `#$nn`, `$nn`, `$nnnn`, a branch by its target address. -/
def operandText (a : Word) : Instr → String
  | .ldaImm b | .ldxImm b | .ldyImm b => " #$" ++ hex2 b
  | .staZp b | .stxZp b | .styZp b | .ldaZp b => " $" ++ hex2 b
  | .bpl b | .bmi b | .bvc b | .bvs b | .bcc b | .bcs b | .bne b | .beq b => " $" ++ hex4 (branchDestination a b)
  | .staAbs w | .stxAbs w | .styAbs w | .ldaAbs w | .jmpAbs w | .jsr w => " $" ++ hex4 w
  | .hlt | .clc | .sec | .cli | .sei | .clv | .cld | .sed | .nop | .txa | .tya | .tay | .dey | .iny | .tax | .tsx | .dex
  | .inx | .txs | .pha | .php | .pla | .plp | .rts => ""

/-- An instruction at address `a` as R72 writes it. -/
def assemblyText (a : Word) (i : Instr) : String := mnemonic i ++ operandText a i

/-- The offset byte for a branch at `a` to `target` (R72): `(target - (a + 2)) mod 256`, refused outside -128 to +127. -/
def assembleOffset (a target : Word) : Option Byte :=
  let d := target - (a + 2)
  if sext16 (lo8 d) = d then some (lo8 d) else none

end Sys2Proof.Machine
end

