-- ==== Sys2Proof/Machine/Reset.lean ====
section
/-! DEFINITION. `Reset(image)`, the construction of the machine from any image (spec/70_reset_and_hazards.md R220 to R223). -/

namespace Sys2Proof.Machine

/-- The construction input: exactly 0x8010 bytes, so that an image of another length cannot be written down (R222, decision
D12). -/
abbrev Image := Vector Byte Config.imageSize

/-- Byte `k` of the image. -/
def imageByte (img : Image) (k : Nat) : Byte := (img[k]?).getD unlistedByte

/-- The canonical list that holds `f lo`, `f (lo + 1)`, ... for `n` indexes. -/
def cellsOf (f : Nat → Byte) (lo : Nat) : Nat → List Host.Cell
  | 0 => []
  | n + 1 => if f lo = unlistedByte then cellsOf f (lo + 1) n else (lo, f lo) :: cellsOf f (lo + 1) n

/-- `ROM[i] = image[16 + i]` for every `i` (R54, R220). The 16 header bytes go nowhere (decision D18). -/
def romCells (img : Image) : List Host.Cell := cellsOf (fun i => imageByte img (Config.headerSize + i)) 0 Config.romSize

/-- The memory after `Reset(image)`: RAM zero, ROM loaded (R220). -/
def resetMemory (img : Image) : Memory := ⟨[], romCells img⟩

/-- The reset vector of a memory, little-endian (R221, R45). -/
def resetVector (m : Memory) : Word := absAddress (memRead m Config.resetVectorLo) (memRead m Config.resetVectorHi)

/-- `Reset(image)` (R220, R25): one operation that takes no step and discards all state. -/
def resetImage (img : Image) : State where
  a := 0x00#8
  x := 0x00#8
  y := 0x00#8
  pc := resetVector (resetMemory img)
  sp := Config.initialSp
  flags := ⟨false, false, true, false, false, false⟩
  ir := 0x00#8
  t0 := 0x00#8
  t1 := 0x00#8
  queue := []
  halted := false
  diagValid := false
  diagOpcode := 0x00#8
  mem := resetMemory img

/-- The image whose bytes are all 0x00, the one of `State.reset` (assumption 12). -/
def blankImage : Image := Vector.replicate Config.imageSize unlistedByte

end Sys2Proof.Machine
end

