-- ==== Sys2Proof/Machine/Observe.lean ====
section
/-! DEFINITION. What the host can see and do (spec/00_scope.md R2, spec/10_state.md R24, spec/20_memory.md R53,
spec/70_reset_and_hazards.md R229 to R231). -/

namespace Sys2Proof.Machine

/-- The host-readable registers (R24, decision D14, C7). `IR`, `T` and `Q` are hidden. -/
structure Observation where
  a : Byte
  x : Byte
  y : Byte
  pc : Word
  sp : Byte
  flags : Flags
  halted : Bool
  diagValid : Bool
  diagOpcode : Byte
  deriving DecidableEq, Repr

/-- The read-only view of a state between two steps (R230). -/
def observe (s : State) : Observation :=
  ⟨s.a, s.x, s.y, s.pc, s.sp, s.flags, s.halted, s.diagValid, s.diagOpcode⟩

/-- `Read(addr)` (R53): `MemRead(addr, 1)`, changing nothing. -/
def hostRead (s : State) (addr : Word) : Byte := memRead s.mem addr

/-- The loop of R229 from a constructed machine: step until halted or out of fuel; the last state and the steps taken. -/
def hostLoop : Nat → State → State × Nat
  | 0, s => (s, 0)
  | k + 1, s => if s.halted then (s, 0) else ((hostLoop k (clockCycle s)).1, (hostLoop k (clockCycle s)).2 + 1)

/-- `Run(image, fuel)` (R229). -/
def hostRun (img : Image) (fuel : Nat) : State × Nat := hostLoop fuel (resetImage img)

/-- The outputs of the recommended signal mapping (R231): the registers, `p_o = ToByte()`, the halt outputs, and the
debug read port. No rule depends on the mapping (decision D13). -/
structure Ports where
  a_o : Byte
  x_o : Byte
  y_o : Byte
  pc_o : Word
  sp_o : Byte
  p_o : Byte
  halted_o : Bool
  diag_valid_o : Bool
  diag_opcode_o : Byte
  dbg_data_o : Byte
  deriving DecidableEq, Repr

/-- The output signals, combinational views of the state (R231), with the debug port reading `dbgAddr`. -/
def ports (dbgAddr : Word) (s : State) : Ports :=
  ⟨s.a, s.x, s.y, s.pc, s.sp, toByte s.flags, s.halted, s.diagValid, s.diagOpcode, hostRead s dbgAddr⟩

/-- One rising clock edge (R231): `rst` constructs anew, `step_en` takes one step, else the state holds. -/
def clockEdge (img : Image) (rst stepEn : Bool) (s : State) : State :=
  if rst then resetImage img else if stepEn then clockCycle s else s

end Sys2Proof.Machine
end

