-- ==== Sys2Proof/WellFormed.lean ====
section
/-! DEFINITION. What is well formed: instructions, the `HLT_OPCODE` parameter, and the micro-operations that may stand in the
queue. -/

namespace Sys2Proof

/-- Every instruction is well formed: every operand byte value is legal in every format (spec/30_encoding.md R69), and the
operand types hold exactly those values. -/
def Instr.wellFormed (_ : Instr) : Bool := true

/-- A legal `HLT_OPCODE`: a byte that no other row of the opcode map has (decision D2). -/
def hltOpcodeLegal (b : Byte) : Bool := !((opcodeRows b).tail.any fun r => r.opcode == b)

namespace Machine

/-- The parameter combinations that ever enter the queue (R113 and the lists "used with" of R88 to R91, R95, R97, R103). -/
def MicroOp.wellFormed : MicroOp → Bool
  | .setFlag f b => [(Flag.c, false), (.c, true), (.i, false), (.i, true), (.v, false), (.d, false), (.d, true)].contains (f, b)
  | .transfer dst src zn =>
    [(Reg.a, Reg.x, true), (.a, .y, true), (.y, .a, true), (.x, .a, true), (.x, .sp, true), (.sp, .x, false)].contains
      (dst, src, zn)
  | .incDec r d fs =>
    [(Reg.y, Delta.minus, Reg.x), (.y, .plus, .y), (.x, .minus, .x), (.x, .plus, .x)].contains (r, d, fs)
  | .loadImm r zn => [(Reg.a, true), (.x, false), (.y, false)].contains (r, zn)
  | .storeZp r | .storeAbs r => r != .sp
  | .branchTest f _ => [Flag.n, .v, .c, .z].contains f
  | .nop | .fetchLo | .fetchHi | .fetchHiNoInc | .loadZpA | .loadAbsA | .pushA | .pushP | .pullA | .pullP | .fetchHiJump
  | .pushPCH | .pushPCL | .jumpT | .pullLo | .pullHi | .returnT | .halt | .haltUnknown => true

end Machine

end Sys2Proof
end

