-- ==== Sys2Proof/Safety.lean ====
section
/-! DEFINITION. The terms claims use: why a run ended, what a state of a run satisfies, and where a step is the fetch of a given
instruction. -/

namespace Sys2Proof.Machine

/-- How a machine stands (spec/60_exceptions.md R203): running, ended by HLT, or ended by an unknown opcode. -/
inductive RunStatus where
  | running
  | haltedByHlt
  | haltedByUnknown (op : Byte)
  deriving DecidableEq, Repr

/-- The cause read from `halted` and the diagnostic register (R203). -/
def runStatus (s : State) : RunStatus :=
  if s.halted then (if s.diagValid then .haltedByUnknown s.diagOpcode else .haltedByHlt) else .running

/-- A run that has ended as the program asked (R202, R211): the good end. -/
def endedByProgram (s : State) : Bool := runStatus s == .haltedByHlt

/-- The legal contents of the queue (R116): a suffix of the decode list of the opcode in `IR`, or one or two `Nop`. The
empty queue is such a suffix. -/
def QueueLegal (s : State) : Prop :=
  s.queue <:+ decodeQueue s.ir ∨ s.queue = [.nop] ∨ s.queue = [.nop, .nop]

/-- At the halt the queue is empty and the diagnostic register says why (R203, R204); before it, no report stands. -/
def HaltConsistent (s : State) : Prop :=
  (s.halted = true → s.queue = []) ∧ (s.diagValid = true → s.halted = true ∧ s.diagOpcode = s.ir)

/-- The invariant of every run: memory in canonical form, a legal queue, a consistent halt. -/
def Inv (s : State) : Prop := s.mem.wf = true ∧ QueueLegal s ∧ HaltConsistent s

/-- The machine runs, stands at an instruction boundary, and the bytes at `PC` decode to `i`. -/
def Fetches (s : State) (i : Instr) : Prop :=
  s.halted = false ∧ s.queue = [] ∧ ∃ rest, decodeAtPc s = .instr i rest

/-- Two addresses name one byte of storage: the same address, or two mirrors of one RAM byte (R40, R44). -/
def sameCell (p q : Word) : Bool :=
  if isRom p || isRom q then p == q else ramIndex p == ramIndex q

/-- `k` clock cycles of the machine of Host/Core.lean. -/
def runCycles (k : Nat) (s : State) : Outcome := Host.Core.run Sys2Proof.core k s

/-- A micro-op's rule (R87 to R112): a running step with `m` at the head of the queue takes `m` off and does `effect`; its one
memory access, or none, is `access` (R114). -/
def MicroRule (m : MicroOp) (access : State → Option Access) (effect : State → State) : Prop :=
  ∀ (s : State) (q : List MicroOp), s.halted = false → s.queue = m :: q →
    step s = .next (effect { s with queue := q }) ∧ stepAccess s = access s

/-- The state after the fetch step of `i` (R81, R82): opcode in `IR`, `PC` past it, the decode list in `Q`. -/
def fetched (i : Instr) (s : State) : State := { s with ir := opcode i, pc := s.pc + 1, queue := microOps i }

/-- An instruction's rule (R130 to R175): its encoding, the micro-ops it decodes to, its effect as a whole, and that a machine
which fetches it has those micro-ops queued after one step and that effect after exactly `steps`, with so many memory
reads and writes on the way. `effect` is written as an update of the state, so every field it does not name is unchanged. -/
def InstrRule (i : Instr) (bytes : List Byte) (uops : List MicroOp) (reads writes : Nat) (steps : State → Nat)
    (effect : State → State) : Prop :=
  encode i = bytes ∧ microOps i = uops ∧ (∀ s, exec i s = .next (effect s)) ∧
    ∀ s, Fetches s i → runCycles 1 s = .next (fetched i s) ∧ cycles i s = steps s ∧ runCycles (steps s) s = .next (effect s) ∧
      (accessTrace (steps s) s).countP Access.isRead = reads ∧ (accessTrace (steps s) s).countP Access.isWrite = writes

/-- The addresses an instruction stores to, computed as its meaning computes them: the operand address, or the stack address
of each push (R49, R50, R66). -/
def storedAddresses (i : Instr) (s : State) : List Word :=
  match i with
  | .staZp zp | .stxZp zp | .styZp zp => [zpAddress zp]
  | .staAbs w | .stxAbs w | .styAbs w => [absAddress (lo8 w) (hi8 w)]
  | .pha | .php => [stackAddress s.sp]
  | .jsr _ => [stackAddress s.sp, stackAddress (s.sp - 1)]
  | .hlt | .clc | .sec | .cli | .sei | .clv | .cld | .sed | .nop | .txa | .tya | .tay | .dey | .iny | .tax | .tsx | .dex
  | .inx | .txs | .ldaImm _ | .ldxImm _ | .ldyImm _ | .ldaZp _ | .ldaAbs _ | .pla | .plp | .bpl _ | .bmi _ | .bvc _ | .bvs _
  | .bcc _ | .bcs _ | .bne _ | .beq _ | .jmpAbs _ | .rts => []

/-- The clock cycles of `k` instructions from `s`, each instruction's count summed (R227). -/
def totalCycles : Nat → State → Nat
  | 0, _ => 0
  | k + 1, s =>
    instructionCycles s +
      match instructionStep s with
      | .next t => totalCycles k t
      | .fault _ => 0
      | .refused _ => 0

/-- `k` instructions, one at a time. -/
def runInstructions : Nat → State → Outcome
  | 0, s => .next s
  | k + 1, s =>
    match instructionStep s with
    | .next t => runInstructions k t
    | .fault r => .fault r
    | .refused r => .refused r

end Sys2Proof.Machine
end

