-- ==== Sys2Proof/Certificates/Slice0/Obligations.lean ====
section
/-! DEFINITION. The statements for the provers. `s` is any state, reached or not; `runCycles` runs the machine of Host/Core.lean, one
clock cycle a step. -/

open Sys2Proof Sys2Proof.Machine

/-! ## Encoding -/

/-- Decode and encode agree, for every instruction, every operand value, any bytes after it and every legal `HLT_OPCODE`
(R60 to R67; the bytes other than 0xA9 and 0xAD are the spec's decision D1, assumption 2; `HLT_OPCODE` is the parameter of
decision D2, assumption 3). -/
def Obligations.DecodeOfEncodeIsInstruction : Prop :=
  ∀ hlt : Byte, hltOpcodeLegal hlt = true → ∀ (i : Instr) (rest : List Byte),
    i.wellFormed = true → decodeWith hlt (encodeWith hlt i ++ rest) = .instr i rest

/-- Each decodable stream of bytes has one reading: what is decoded encodes to the very bytes read, and their number is the
length of the format (R60, R71). -/
def Obligations.EncodeOfDecodeIsBytes : Prop :=
  ∀ (bytes rest : List Byte) (i : Instr), decode bytes = .instr i rest →
    bytes = encode i ++ rest ∧ bytes.length = instrLength i + rest.length ∧ 1 ≤ instrLength i ∧ instrLength i ≤ 3

/-- A byte is unknown exactly when it is no instruction's opcode, whatever follows it (R68, R69). -/
def Obligations.UnknownExactlyOutsideOpcodeMap : Prop :=
  ∀ (op : Byte) (rest : List Byte), decode (op :: rest) = .unknownOpcode op ↔ ∀ i : Instr, opcode i ≠ op

/-- The opcode map has 45 rows with 45 different bytes, and 211 bytes have no row, 0x00 and 0xFF among them (R67, R68; the bytes
are the spec's decisions D1 and D2, assumptions 2 and 3). -/
def Obligations.OpcodeMapHasFortyFiveRows : Prop :=
  (opcodeRows Config.hltOpcode).length = 45 ∧ ((opcodeRows Config.hltOpcode).map (·.opcode)).Nodup ∧
    ((List.range 256).filter fun n => (lookupRow Config.hltOpcode (BitVec.ofNat 8 n)).isNone).length = 211 ∧
    (lookupRow Config.hltOpcode 0x00#8).isNone = true ∧ (lookupRow Config.hltOpcode 0xFF#8).isNone = true

/-- Words of the spec's encoding table, one for each format, decode to the instruction they stand for (R67). -/
def Obligations.WrittenWordsDecode : Prop :=
  decode [0x18#8] = .instr .clc [] ∧ decode [0xA9#8, 0x42#8] = .instr (.ldaImm 0x42#8) [] ∧
    decode [0x85#8, 0x10#8] = .instr (.staZp 0x10#8) [] ∧ decode [0xAD#8, 0x03#8, 0x08#8] = .instr (.ldaAbs 0x0803#16) [] ∧
    decode [0xD0#8, 0xFD#8] = .instr (.bne 0xFD#8) [] ∧ decode [0x20#8, 0x00#8, 0x90#8] = .instr (.jsr 0x9000#16) [] ∧
    decode [0x02#8] = .instr .hlt [] ∧ decode [0x69#8, 0x05#8] = .unknownOpcode 0x69#8

/-- The offset byte an assembler stores reaches its target; it is refused exactly when the target lies outside
`a + 2 - 128` to `a + 2 + 127` (R65, R72). -/
def Obligations.AssembledOffsetReachesTarget : Prop :=
  ∀ a target : Word,
    (∀ rel, assembleOffset a target = some rel → branchDestination a rel = target) ∧
    (assembleOffset a target = none ↔
      ¬ (-128 ≤ (target - (a + 2)).toInt ∧ (target - (a + 2)).toInt ≤ 127))

/-! ## Reset -/

/-- Every register, flag and control field after `Reset(image)`, for any image (R25; the reset values of `IR`, `T`, `halted` and the
diagnostic register are the spec's decisions D7, D8, D9, D11, assumptions 6, 7, 8). -/
def Obligations.ResetRegisters : Prop :=
  ∀ img : Image, let s := resetImage img
    s.a = 0x00#8 ∧ s.x = 0x00#8 ∧ s.y = 0x00#8 ∧ s.sp = 0xFD#8 ∧ s.flags = ⟨false, false, true, false, false, false⟩ ∧
      toByte s.flags = 0x34#8 ∧ s.ir = 0x00#8 ∧ s.t0 = 0x00#8 ∧ s.t1 = 0x00#8 ∧ s.queue = [] ∧ s.halted = false ∧
      s.diagValid = false ∧ s.diagOpcode = 0x00#8

/-- After `Reset(image)` every RAM address reads 0x00, every ROM address `addr` reads `image[addr - 0x7FF0]`, and `PC` is the
little-endian vector `{image[0x800D], image[0x800C]}`, for any image (R25, R54, R220, R221). -/
def Obligations.ResetMemoryAndVector : Prop :=
  ∀ img : Image,
    (∀ addr : Word, addr.toNat < 0x8000 → hostRead (resetImage img) addr = 0x00#8) ∧
    (∀ addr : Word, 0x8000 ≤ addr.toNat → hostRead (resetImage img) addr = imageByte img (addr.toNat - 0x7FF0)) ∧
    (resetImage img).pc = word (imageByte img 0x800D) (imageByte img 0x800C)

/-- `ROM` holds the image for ever: no number of steps changes a ROM byte, from the reset with any image, and no step changes ROM in
any state (R21). -/
def Obligations.RomIsLoadedOnceAndImmutable : Prop :=
  (∀ (img : Image) (n : Nat) (t : State), runCycles n (resetImage img) = .next t →
    ∀ k : Nat, k < 0x8000 → cellsRead t.mem.rom k = imageByte img (16 + k)) ∧
  (∀ (s t : State) (n : Nat), runCycles n s = .next t → t.mem.rom = s.mem.rom)

/-! ## Memory -/

/-- A write is visible at every mirror of its address, whichever of the two is written; each ROM byte has one address (R44). The premise is the model's own
invariant: memory in canonical form. -/
def Obligations.WriteVisibleAtEveryMirror : Prop :=
  (∀ (m : Memory) (a b : Word) (k : Nat) (v : Byte), m.wf = true → b.toNat = a.toNat + 0x800 * k → a.toNat < 0x8000 →
    b.toNat < 0x8000 → memRead (memWrite m a v) b = v ∧ memRead (memWrite m b v) a = v) ∧
  (∀ a b : Word, isRom a = true → isRom b = true → romIndex a = romIndex b → a = b)

/-- A write changes no byte but the one it names and its mirrors, and a write at or above 0x8000 changes nothing (R42, R55). -/
def Obligations.WriteLeavesOtherBytes : Prop :=
  (∀ (m : Memory) (a b : Word) (v : Byte), sameCell a b = false → memRead (memWrite m a v) b = memRead m b) ∧
  (∀ (m : Memory) (a : Word) (v : Byte), 0x8000 ≤ a.toNat → memWrite m a v = m)

/-- Memories in canonical form that read the same at every address are equal: the form loses nothing and keeps nothing extra (R40,
R41; the list form is the model's, assumption 13). -/
def Obligations.CanonicalMemoryIsDeterminedByReads : Prop :=
  ∀ m m' : Memory, m.wf = true → m'.wf = true → (∀ addr : Word, memRead m addr = memRead m' addr) → m = m'

/-- The stack page and the zero page: every stack address is `0x0100 + SP` and every zero-page address is the byte itself, both in RAM
at the index of the address (R49, R50). -/
def Obligations.StackAndZeroPageAreRam : Prop :=
  ∀ b : Byte, (stackAddress b).toNat = 0x0100 + b.toNat ∧ isRom (stackAddress b) = false ∧
    ramIndex (stackAddress b) = 0x0100 + b.toNat ∧ (zpAddress b).toNat = b.toNat ∧ isRom (zpAddress b) = false ∧
    ramIndex (zpAddress b) = b.toNat

/-! ## Flags -/

/-- `ToByte` and `FromByte`: the numeric layout, bits 4 and 5 always 1, 0x34 after reset (R14, R15), and each undoing the other. The two
round trips are the sentence of R15 "For every `b`, `FromByte(b)` followed by `ToByte()` gives `b | 0x30`; for every flag state,
`ToByte()` followed by `FromByte` of the result restores the same flags", which the spec marks as its own inference
("[derived: from rule R14 and this rule]"). -/
def Obligations.StatusBytePacksAndUnpacks : Prop :=
  (∀ f : Flags, (toByte f).toNat = f.c.toNat + 2 * f.z.toNat + 4 * f.i.toNat + 8 * f.d.toNat + 16 + 32 + 64 * f.v.toNat
      + 128 * f.n.toNat ∧ toByte f &&& 0x30#8 = 0x30#8 ∧ fromByte (toByte f) = f) ∧
  (∀ b : Byte, fromByte b = ⟨b.getLsbD 0, b.getLsbD 1, b.getLsbD 2, b.getLsbD 3, b.getLsbD 6, b.getLsbD 7⟩ ∧
      toByte (fromByte b) = b ||| 0x30#8) ∧
  toByte State.reset.flags = 0x34#8

/-- `SetZN(v)`: zero exactly when the byte is 0, negative exactly when it is above 127, never both, and the other four flags unchanged
(R16). -/
def Obligations.ResultFlagsOfByte : Prop :=
  ∀ (v : Byte) (f : Flags), ((setZN v f).z = true ↔ v.toNat = 0) ∧ ((setZN v f).n = true ↔ 127 < v.toNat) ∧
    ¬ ((setZN v f).z = true ∧ (setZN v f).n = true) ∧ (setZN v f).c = f.c ∧ (setZN v f).i = f.i ∧ (setZN v f).d = f.d ∧
    (setZN v f).v = f.v

/-! ## The step and the micro-operations -/

/-- A step that runs the decoded instruction. When the bytes at `PC` decode to `i` at a boundary, the step fetches: `IR` takes the
opcode, `PC` moves past it, `Q` takes `i`'s micro-ops. The remaining `cycles i s - 1` steps leave what `exec i` answers at
`s`. So `step` adds around `exec` exactly the division into clock cycles (R80 to R84). -/
def Obligations.StepRunsDecodedInstruction : Prop :=
  ∀ (s : State) (i : Instr), Fetches s i →
    step s = .next { s with ir := opcode i, pc := s.pc + 1, queue := microOps i } ∧
    runCycles (cycles i s - 1) { s with ir := opcode i, pc := s.pc + 1, queue := microOps i } = exec i s

/-- The fetch step, and when it runs: in a running machine with an empty queue, one read at `PC` into `IR`, `PC` moved by one, and the
decode list of that byte in the queue, which is the list of the instruction whose opcode it is, or `HaltUnknown` alone; and only there,
since with a queue the step is the micro-op at its head and leaves `IR`, and while halted it is nothing (R80, R81, R82; the
halted case is the spec's decision D4, assumption 5). -/
def Obligations.FetchStep : Prop :=
  (∀ s : State, s.halted = false → s.queue = [] →
    stepAccess s = some (.read s.pc) ∧
    step s = .next { s with ir := memRead s.mem s.pc, pc := s.pc + 1, queue := decodeQueue (memRead s.mem s.pc) }) ∧
  (∀ (s : State) (m : MicroOp) (q : List MicroOp), s.halted = false → s.queue = m :: q →
    step s = .next (execMicro m { s with queue := q }) ∧ (execMicro m { s with queue := q }).ir = s.ir) ∧
  (∀ s : State, s.halted = true → stepAccess s = none ∧ step s = .next s) ∧
  (∀ i : Instr, decodeQueue (opcode i) = microOps i) ∧
  (∀ op : Byte, (∀ i : Instr, opcode i ≠ op) → decodeQueue op = [.haltUnknown])

/-- While halted nothing changes, however many steps the host takes (R80, R207; the spec's decision D4, assumption 5). -/
def Obligations.HaltedMachineIsFrozen : Prop :=
  ∀ (s : State) (n : Nat), s.halted = true → runCycles n s = .next s

/-- The register and flag micro-ops: `Nop`, `SetFlag`, `Transfer`, `IncDec`, `LoadImm`, in each combination the decode lists use
(R87 to R91). -/
def Obligations.RegisterMicroOps : Prop :=
  MicroRule .nop (fun _ => none) (fun s => s) ∧
  MicroRule (.setFlag .c false) (fun _ => none) (fun s => { s with flags := { s.flags with c := false } }) ∧
  MicroRule (.setFlag .c true) (fun _ => none) (fun s => { s with flags := { s.flags with c := true } }) ∧
  MicroRule (.setFlag .i false) (fun _ => none) (fun s => { s with flags := { s.flags with i := false } }) ∧
  MicroRule (.setFlag .i true) (fun _ => none) (fun s => { s with flags := { s.flags with i := true } }) ∧
  MicroRule (.setFlag .v false) (fun _ => none) (fun s => { s with flags := { s.flags with v := false } }) ∧
  MicroRule (.setFlag .d false) (fun _ => none) (fun s => { s with flags := { s.flags with d := false } }) ∧
  MicroRule (.setFlag .d true) (fun _ => none) (fun s => { s with flags := { s.flags with d := true } }) ∧
  MicroRule (.transfer .a .x true) (fun _ => none) (fun s => { s with a := s.x, flags := setZN s.x s.flags }) ∧
  MicroRule (.transfer .a .y true) (fun _ => none) (fun s => { s with a := s.y, flags := setZN s.y s.flags }) ∧
  MicroRule (.transfer .y .a true) (fun _ => none) (fun s => { s with y := s.a, flags := setZN s.a s.flags }) ∧
  MicroRule (.transfer .x .a true) (fun _ => none) (fun s => { s with x := s.a, flags := setZN s.a s.flags }) ∧
  MicroRule (.transfer .x .sp true) (fun _ => none) (fun s => { s with x := s.sp, flags := setZN s.sp s.flags }) ∧
  MicroRule (.transfer .sp .x false) (fun _ => none) (fun s => { s with sp := s.x }) ∧
  MicroRule (.incDec .y .minus .x) (fun _ => none) (fun s => { s with y := s.y - 1, flags := setZN s.x s.flags }) ∧
  MicroRule (.incDec .y .plus .y) (fun _ => none) (fun s => { s with y := s.y + 1, flags := setZN (s.y + 1) s.flags }) ∧
  MicroRule (.incDec .x .minus .x) (fun _ => none) (fun s => { s with x := s.x - 1, flags := setZN (s.x - 1) s.flags }) ∧
  MicroRule (.incDec .x .plus .x) (fun _ => none) (fun s => { s with x := s.x + 1, flags := setZN (s.x + 1) s.flags }) ∧
  MicroRule (.loadImm .a true) (fun s => some (.read s.pc)) (fun s =>
    { s with a := memRead s.mem s.pc, pc := s.pc + 1, flags := setZN (memRead s.mem s.pc) s.flags }) ∧
  MicroRule (.loadImm .x false) (fun s => some (.read s.pc)) (fun s => { s with x := memRead s.mem s.pc, pc := s.pc + 1 }) ∧
  MicroRule (.loadImm .y false) (fun s => some (.read s.pc)) (fun s => { s with y := memRead s.mem s.pc, pc := s.pc + 1 })

/-- The operand-fetch, load and store micro-ops (R92 to R98, R104). -/
def Obligations.OperandAndDataMicroOps : Prop :=
  MicroRule .fetchLo (fun s => some (.read s.pc)) (fun s => { s with t0 := memRead s.mem s.pc, pc := s.pc + 1 }) ∧
  MicroRule .fetchHi (fun s => some (.read s.pc)) (fun s => { s with t1 := memRead s.mem s.pc, pc := s.pc + 1 }) ∧
  MicroRule .fetchHiNoInc (fun s => some (.read s.pc)) (fun s => { s with t1 := memRead s.mem s.pc }) ∧
  MicroRule (.storeZp .a) (fun s => some (.write (zext16 s.t0) s.a)) (fun s => { s with mem := memWrite s.mem (zext16 s.t0) s.a }) ∧
  MicroRule (.storeZp .x) (fun s => some (.write (zext16 s.t0) s.x)) (fun s => { s with mem := memWrite s.mem (zext16 s.t0) s.x }) ∧
  MicroRule (.storeZp .y) (fun s => some (.write (zext16 s.t0) s.y)) (fun s => { s with mem := memWrite s.mem (zext16 s.t0) s.y }) ∧
  MicroRule .loadZpA (fun s => some (.read (zext16 s.t0))) (fun s =>
    { s with a := memRead s.mem (zext16 s.t0), flags := setZN (memRead s.mem (zext16 s.t0)) s.flags }) ∧
  MicroRule (.storeAbs .a) (fun s => some (.write (word s.t1 s.t0) s.a)) (fun s =>
    { s with mem := memWrite s.mem (word s.t1 s.t0) s.a }) ∧
  MicroRule (.storeAbs .x) (fun s => some (.write (word s.t1 s.t0) s.x)) (fun s =>
    { s with mem := memWrite s.mem (word s.t1 s.t0) s.x }) ∧
  MicroRule (.storeAbs .y) (fun s => some (.write (word s.t1 s.t0) s.y)) (fun s =>
    { s with mem := memWrite s.mem (word s.t1 s.t0) s.y }) ∧
  MicroRule .loadAbsA (fun s => some (.read (word s.t1 s.t0))) (fun s =>
    { s with a := memRead s.mem (word s.t1 s.t0), flags := setZN (memRead s.mem (word s.t1 s.t0)) s.flags }) ∧
  MicroRule .fetchHiJump (fun s => some (.read s.pc)) (fun s =>
    { s with t1 := memRead s.mem s.pc, pc := word (memRead s.mem s.pc) s.t0 })

/-- The stack micro-ops, with the padding that pushes and pulls of A and P append behind whatever the queue holds (R99 to R102, R105,
R106, R108, R109). The address is `{0x01, SP}`: before the decrement of a push, after the increment of a pull. -/
def Obligations.StackMicroOps : Prop :=
  MicroRule .pushA (fun s => some (.write (word 0x01#8 s.sp) s.a)) (fun s =>
    { s with mem := memWrite s.mem (word 0x01#8 s.sp) s.a, sp := s.sp - 1, queue := s.queue ++ [.nop] }) ∧
  MicroRule .pushP (fun s => some (.write (word 0x01#8 s.sp) (toByte s.flags))) (fun s =>
    { s with mem := memWrite s.mem (word 0x01#8 s.sp) (toByte s.flags), sp := s.sp - 1, queue := s.queue ++ [.nop] }) ∧
  MicroRule .pullA (fun s => some (.read (word 0x01#8 (s.sp + 1)))) (fun s =>
    { s with sp := s.sp + 1, a := memRead s.mem (word 0x01#8 (s.sp + 1)),
             flags := setZN (memRead s.mem (word 0x01#8 (s.sp + 1))) s.flags, queue := s.queue ++ [.nop, .nop] }) ∧
  MicroRule .pullP (fun s => some (.read (word 0x01#8 (s.sp + 1)))) (fun s =>
    { s with sp := s.sp + 1, flags := fromByte (memRead s.mem (word 0x01#8 (s.sp + 1))),
             queue := s.queue ++ [.nop, .nop] }) ∧
  MicroRule .pushPCH (fun s => some (.write (word 0x01#8 s.sp) (hi8 s.pc))) (fun s =>
    { s with mem := memWrite s.mem (word 0x01#8 s.sp) (hi8 s.pc), sp := s.sp - 1 }) ∧
  MicroRule .pushPCL (fun s => some (.write (word 0x01#8 s.sp) (lo8 s.pc))) (fun s =>
    { s with mem := memWrite s.mem (word 0x01#8 s.sp) (lo8 s.pc), sp := s.sp - 1 }) ∧
  MicroRule .pullLo (fun s => some (.read (word 0x01#8 (s.sp + 1)))) (fun s =>
    { s with sp := s.sp + 1, t0 := memRead s.mem (word 0x01#8 (s.sp + 1)) }) ∧
  MicroRule .pullHi (fun s => some (.read (word 0x01#8 (s.sp + 1)))) (fun s =>
    { s with sp := s.sp + 1, t1 := memRead s.mem (word 0x01#8 (s.sp + 1)) })

/-- The branch, jump and return micro-ops (R103, R107, R110): a taken branch adds the sign-extended offset and pads when the offset
byte is above 127. -/
def Obligations.BranchAndJumpMicroOps : Prop :=
  (∀ (f : Flag) (b : Bool), MicroRule (.branchTest f b) (fun _ => none) (fun s =>
    if flagGet f s.flags = b then
      { s with pc := s.pc + sext16 s.t0, queue := if 127 < s.t0.toNat then s.queue ++ [.nop] else s.queue }
    else s)) ∧
  MicroRule .jumpT (fun _ => none) (fun s => { s with pc := word s.t1 s.t0 }) ∧
  MicroRule .returnT (fun _ => none) (fun s => { s with pc := word s.t1 s.t0 + 1 })

/-- The halting micro-ops (R111, R112; the spec's decisions D3 and D9, assumptions 4 and 8). -/
def Obligations.HaltMicroOps : Prop :=
  MicroRule .halt (fun _ => none) (fun s => { s with halted := true }) ∧
  MicroRule .haltUnknown (fun _ => none) (fun s => { s with halted := true, diagValid := true, diagOpcode := s.ir })

/-! ## The instructions -/

/-- HLT (R130): two steps; `halted` is set, the diagnostic register is not written. Its byte and its two steps are the spec's decisions D2
and D3 (assumptions 3, 4). -/
def Obligations.HaltInstruction : Prop :=
  InstrRule .hlt [0x02#8] [.halt] 1 0 (fun _ => 2) (fun s => { s with ir := 0x02#8, pc := s.pc + 1, halted := true })

/-- The unknown opcode (R131): one byte, two steps; after the first the machine still runs, after the second `halted` and the
diagnostic register are set, and nothing else but `IR` and `PC` has changed (C5). -/
def Obligations.UnknownOpcodeHaltsAndReports : Prop :=
  ∀ (s : State) (op : Byte), s.halted = false → s.queue = [] → decodeAtPc s = .unknownOpcode op →
    runCycles 1 s = .next { s with ir := op, pc := s.pc + 1, queue := [.haltUnknown] } ∧
    runCycles 2 s =
      .next { s with ir := op, pc := s.pc + 1, halted := true, diagValid := true, diagOpcode := op }

/-- CLC, SEC, CLI, SEI, CLV, CLD, SED: one flag each, nothing else but `IR` and `PC` (R132 to R138). -/
def Obligations.FlagInstructions : Prop :=
  InstrRule .clc [0x18#8] [.setFlag .c false] 1 0 (fun _ => 2)
    (fun s => { s with ir := 0x18#8, pc := s.pc + 1, flags := { s.flags with c := false } }) ∧
  InstrRule .sec [0x38#8] [.setFlag .c true] 1 0 (fun _ => 2)
    (fun s => { s with ir := 0x38#8, pc := s.pc + 1, flags := { s.flags with c := true } }) ∧
  InstrRule .cli [0x58#8] [.setFlag .i false] 1 0 (fun _ => 2)
    (fun s => { s with ir := 0x58#8, pc := s.pc + 1, flags := { s.flags with i := false } }) ∧
  InstrRule .sei [0x78#8] [.setFlag .i true] 1 0 (fun _ => 2)
    (fun s => { s with ir := 0x78#8, pc := s.pc + 1, flags := { s.flags with i := true } }) ∧
  InstrRule .clv [0xB8#8] [.setFlag .v false] 1 0 (fun _ => 2)
    (fun s => { s with ir := 0xB8#8, pc := s.pc + 1, flags := { s.flags with v := false } }) ∧
  InstrRule .cld [0xD8#8] [.setFlag .d false] 1 0 (fun _ => 2)
    (fun s => { s with ir := 0xD8#8, pc := s.pc + 1, flags := { s.flags with d := false } }) ∧
  InstrRule .sed [0xF8#8] [.setFlag .d true] 1 0 (fun _ => 2)
    (fun s => { s with ir := 0xF8#8, pc := s.pc + 1, flags := { s.flags with d := true } })

/-- NOP and the six transfers: TXS alone writes no flag (R139 to R142, R145, R146, R149). -/
def Obligations.NopAndTransferInstructions : Prop :=
  InstrRule .nop [0xEA#8] [.nop] 1 0 (fun _ => 2) (fun s => { s with ir := 0xEA#8, pc := s.pc + 1 }) ∧
  InstrRule .txa [0x8A#8] [.transfer .a .x true] 1 0 (fun _ => 2)
    (fun s => { s with ir := 0x8A#8, pc := s.pc + 1, a := s.x, flags := setZN s.x s.flags }) ∧
  InstrRule .tya [0x98#8] [.transfer .a .y true] 1 0 (fun _ => 2)
    (fun s => { s with ir := 0x98#8, pc := s.pc + 1, a := s.y, flags := setZN s.y s.flags }) ∧
  InstrRule .tay [0xA8#8] [.transfer .y .a true] 1 0 (fun _ => 2)
    (fun s => { s with ir := 0xA8#8, pc := s.pc + 1, y := s.a, flags := setZN s.a s.flags }) ∧
  InstrRule .tax [0xAA#8] [.transfer .x .a true] 1 0 (fun _ => 2)
    (fun s => { s with ir := 0xAA#8, pc := s.pc + 1, x := s.a, flags := setZN s.a s.flags }) ∧
  InstrRule .tsx [0xBA#8] [.transfer .x .sp true] 1 0 (fun _ => 2)
    (fun s => { s with ir := 0xBA#8, pc := s.pc + 1, x := s.sp, flags := setZN s.sp s.flags }) ∧
  InstrRule .txs [0x9A#8] [.transfer .sp .x false] 1 0 (fun _ => 2)
    (fun s => { s with ir := 0x9A#8, pc := s.pc + 1, sp := s.x })

/-- DEY, INY, DEX, INX: wrap modulo 256; DEY takes its flags from X (R143, R144, R147, R148; C4). -/
def Obligations.IncrementAndDecrementInstructions : Prop :=
  InstrRule .dey [0x88#8] [.incDec .y .minus .x] 1 0 (fun _ => 2)
    (fun s => { s with ir := 0x88#8, pc := s.pc + 1, y := s.y - 1, flags := setZN s.x s.flags }) ∧
  InstrRule .iny [0xC8#8] [.incDec .y .plus .y] 1 0 (fun _ => 2)
    (fun s => { s with ir := 0xC8#8, pc := s.pc + 1, y := s.y + 1, flags := setZN (s.y + 1) s.flags }) ∧
  InstrRule .dex [0xCA#8] [.incDec .x .minus .x] 1 0 (fun _ => 2)
    (fun s => { s with ir := 0xCA#8, pc := s.pc + 1, x := s.x - 1, flags := setZN (s.x - 1) s.flags }) ∧
  InstrRule .inx [0xE8#8] [.incDec .x .plus .x] 1 0 (fun _ => 2)
    (fun s => { s with ir := 0xE8#8, pc := s.pc + 1, x := s.x + 1, flags := setZN (s.x + 1) s.flags })

/-- LDA#, LDX#, LDY#: the operand byte into the register; only LDA# writes flags (R150 to R152; C3). -/
def Obligations.ImmediateLoadInstructions : Prop :=
  ∀ imm : Byte,
    InstrRule (.ldaImm imm) [0xA9#8, imm] [.loadImm .a true] 2 0 (fun _ => 2)
      (fun s => { s with ir := 0xA9#8, pc := s.pc + 2, a := imm, flags := setZN imm s.flags }) ∧
    InstrRule (.ldxImm imm) [0xA2#8, imm] [.loadImm .x false] 2 0 (fun _ => 2)
      (fun s => { s with ir := 0xA2#8, pc := s.pc + 2, x := imm }) ∧
    InstrRule (.ldyImm imm) [0xA0#8, imm] [.loadImm .y false] 2 0 (fun _ => 2)
      (fun s => { s with ir := 0xA0#8, pc := s.pc + 2, y := imm })

/-- STA, STX, STY, LDA zero page: the address is the operand byte, the stores write no flag (R153 to R156). -/
def Obligations.ZeroPageInstructions : Prop :=
  ∀ zp : Byte,
    InstrRule (.staZp zp) [0x85#8, zp] [.fetchLo, .storeZp .a] 2 1 (fun _ => 3)
      (fun s => { s with ir := 0x85#8, pc := s.pc + 2, t0 := zp, mem := memWrite s.mem (zext16 zp) s.a }) ∧
    InstrRule (.stxZp zp) [0x86#8, zp] [.fetchLo, .storeZp .x] 2 1 (fun _ => 3)
      (fun s => { s with ir := 0x86#8, pc := s.pc + 2, t0 := zp, mem := memWrite s.mem (zext16 zp) s.x }) ∧
    InstrRule (.styZp zp) [0x84#8, zp] [.fetchLo, .storeZp .y] 2 1 (fun _ => 3)
      (fun s => { s with ir := 0x84#8, pc := s.pc + 2, t0 := zp, mem := memWrite s.mem (zext16 zp) s.y }) ∧
    InstrRule (.ldaZp zp) [0xA5#8, zp] [.fetchLo, .loadZpA] 3 0 (fun _ => 3)
      (fun s => { s with ir := 0xA5#8, pc := s.pc + 2, t0 := zp, a := memRead s.mem (zext16 zp),
                         flags := setZN (memRead s.mem (zext16 zp)) s.flags })

/-- STA, STX, STY, LDA absolute: the low address byte comes first in the stream; a store to ROM is a `memWrite` that changes nothing
(R157 to R160). -/
def Obligations.AbsoluteInstructions : Prop :=
  ∀ w : Word,
    InstrRule (.staAbs w) [0x8D#8, lo8 w, hi8 w] [.fetchLo, .fetchHi, .storeAbs .a] 3 1 (fun _ => 4)
      (fun s => { s with ir := 0x8D#8, pc := s.pc + 3, t0 := lo8 w, t1 := hi8 w, mem := memWrite s.mem w s.a }) ∧
    InstrRule (.stxAbs w) [0x8E#8, lo8 w, hi8 w] [.fetchLo, .fetchHi, .storeAbs .x] 3 1 (fun _ => 4)
      (fun s => { s with ir := 0x8E#8, pc := s.pc + 3, t0 := lo8 w, t1 := hi8 w, mem := memWrite s.mem w s.x }) ∧
    InstrRule (.styAbs w) [0x8C#8, lo8 w, hi8 w] [.fetchLo, .fetchHi, .storeAbs .y] 3 1 (fun _ => 4)
      (fun s => { s with ir := 0x8C#8, pc := s.pc + 3, t0 := lo8 w, t1 := hi8 w, mem := memWrite s.mem w s.y }) ∧
    InstrRule (.ldaAbs w) [0xAD#8, lo8 w, hi8 w] [.fetchLo, .fetchHi, .loadAbsA] 4 0 (fun _ => 4)
      (fun s => { s with ir := 0xAD#8, pc := s.pc + 3, t0 := lo8 w, t1 := hi8 w, a := memRead s.mem w,
                         flags := setZN (memRead s.mem w) s.flags })

/-- PHA, PHP, PLA, PLP: the stack byte, the stack pointer, and for the pulls A with its flags or all six flags; the whole effect is there
after two steps, the rest is padding (R161 to R164). -/
def Obligations.StackInstructions : Prop :=
  InstrRule .pha [0x48#8] [.pushA] 1 1 (fun _ => 3)
    (fun s => { s with ir := 0x48#8, pc := s.pc + 1, mem := memWrite s.mem (stackAddress s.sp) s.a, sp := s.sp - 1 }) ∧
  InstrRule .php [0x08#8] [.pushP] 1 1 (fun _ => 3)
    (fun s => { s with ir := 0x08#8, pc := s.pc + 1, mem := memWrite s.mem (stackAddress s.sp) (toByte s.flags),
                       sp := s.sp - 1 }) ∧
  InstrRule .pla [0x68#8] [.pullA] 2 0 (fun _ => 4)
    (fun s => { s with ir := 0x68#8, pc := s.pc + 1, sp := s.sp + 1, a := memRead s.mem (stackAddress (s.sp + 1)),
                       flags := setZN (memRead s.mem (stackAddress (s.sp + 1))) s.flags }) ∧
  InstrRule .plp [0x28#8] [.pullP] 2 0 (fun _ => 4)
    (fun s => { s with ir := 0x28#8, pc := s.pc + 1, sp := s.sp + 1,
                       flags := fromByte (memRead s.mem (stackAddress (s.sp + 1))) }) ∧
  (∀ s t, Fetches s .pha → exec .pha s = .next t → runCycles 2 s = .next { t with queue := [.nop] }) ∧
  (∀ s t, Fetches s .php → exec .php s = .next t → runCycles 2 s = .next { t with queue := [.nop] }) ∧
  (∀ s t, Fetches s .pla → exec .pla s = .next t → runCycles 2 s = .next { t with queue := [.nop, .nop] }) ∧
  (∀ s t, Fetches s .plp → exec .plp s = .next t → runCycles 2 s = .next { t with queue := [.nop, .nop] })

/-- The eight branches: the flag and polarity each tests, the target, the steps (3, or 4 when taken with an offset byte above 127), and
no flag written (R165 to R172; C1, C2). -/
def Obligations.BranchInstructions : Prop :=
  ∀ rel : Byte,
    InstrRule (.bpl rel) [0x10#8, rel] [.fetchLo, .branchTest .n false] 2 0
      (fun s => if s.flags.n = false ∧ 127 < rel.toNat then 4 else 3)
      (fun s => { s with ir := 0x10#8, t0 := rel, pc := if s.flags.n = false then s.pc + 2 + sext16 rel else s.pc + 2 }) ∧
    InstrRule (.bmi rel) [0x30#8, rel] [.fetchLo, .branchTest .n true] 2 0
      (fun s => if s.flags.n = true ∧ 127 < rel.toNat then 4 else 3)
      (fun s => { s with ir := 0x30#8, t0 := rel, pc := if s.flags.n = true then s.pc + 2 + sext16 rel else s.pc + 2 }) ∧
    InstrRule (.bvc rel) [0x50#8, rel] [.fetchLo, .branchTest .v false] 2 0
      (fun s => if s.flags.v = false ∧ 127 < rel.toNat then 4 else 3)
      (fun s => { s with ir := 0x50#8, t0 := rel, pc := if s.flags.v = false then s.pc + 2 + sext16 rel else s.pc + 2 }) ∧
    InstrRule (.bvs rel) [0x70#8, rel] [.fetchLo, .branchTest .v true] 2 0
      (fun s => if s.flags.v = true ∧ 127 < rel.toNat then 4 else 3)
      (fun s => { s with ir := 0x70#8, t0 := rel, pc := if s.flags.v = true then s.pc + 2 + sext16 rel else s.pc + 2 }) ∧
    InstrRule (.bcc rel) [0x90#8, rel] [.fetchLo, .branchTest .c false] 2 0
      (fun s => if s.flags.c = false ∧ 127 < rel.toNat then 4 else 3)
      (fun s => { s with ir := 0x90#8, t0 := rel, pc := if s.flags.c = false then s.pc + 2 + sext16 rel else s.pc + 2 }) ∧
    InstrRule (.bcs rel) [0xB0#8, rel] [.fetchLo, .branchTest .c true] 2 0
      (fun s => if s.flags.c = true ∧ 127 < rel.toNat then 4 else 3)
      (fun s => { s with ir := 0xB0#8, t0 := rel, pc := if s.flags.c = true then s.pc + 2 + sext16 rel else s.pc + 2 }) ∧
    InstrRule (.bne rel) [0xD0#8, rel] [.fetchLo, .branchTest .z false] 2 0
      (fun s => if s.flags.z = false ∧ 127 < rel.toNat then 4 else 3)
      (fun s => { s with ir := 0xD0#8, t0 := rel, pc := if s.flags.z = false then s.pc + 2 + sext16 rel else s.pc + 2 }) ∧
    InstrRule (.beq rel) [0xF0#8, rel] [.fetchLo, .branchTest .z true] 2 0
      (fun s => if s.flags.z = true ∧ 127 < rel.toNat then 4 else 3)
      (fun s => { s with ir := 0xF0#8, t0 := rel, pc := if s.flags.z = true then s.pc + 2 + sext16 rel else s.pc + 2 })

/-- JMP, JSR, RTS: the target; the address of JSR's last byte pushed high byte first; RTS one past the pulled address (R173 to R175; the
place of RTS's padding is the spec's decision D10, assumption 9). -/
def Obligations.JumpAndSubroutineInstructions : Prop :=
  (∀ w : Word,
    InstrRule (.jmpAbs w) [0x4C#8, lo8 w, hi8 w] [.fetchLo, .fetchHiJump] 3 0 (fun _ => 3)
      (fun s => { s with ir := 0x4C#8, t0 := lo8 w, t1 := hi8 w, pc := w }) ∧
    InstrRule (.jsr w) [0x20#8, lo8 w, hi8 w] [.fetchLo, .fetchHiNoInc, .pushPCH, .pushPCL, .jumpT] 3 2 (fun _ => 6)
      (fun s => { s with ir := 0x20#8, t0 := lo8 w, t1 := hi8 w, pc := w, sp := s.sp - 2,
                         mem := memWrite (memWrite s.mem (stackAddress s.sp) (hi8 (s.pc + 2))) (stackAddress (s.sp - 1))
                           (lo8 (s.pc + 2)) })) ∧
  InstrRule .rts [0x60#8] [.pullLo, .pullHi, .returnT, .nop, .nop] 3 0 (fun _ => 6)
    (fun s => { s with ir := 0x60#8, sp := s.sp + 2, t0 := memRead s.mem (stackAddress (s.sp + 1)),
                       t1 := memRead s.mem (stackAddress (s.sp + 2)),
                       pc := word (memRead s.mem (stackAddress (s.sp + 2))) (memRead s.mem (stackAddress (s.sp + 1))) + 1 })

/-! ## Frames -/

/-- Each register is written by the instructions R10 and R12 list and by no other; the queue, the diagnostic register and, but for HLT,
`halted` stay; `IR` takes the opcode; `T[0]` changes only in the formats ZP, REL, ABS and for RTS, `T[1]` only in ABS and for RTS, never
for an immediate byte (R10, R12, R17, R18, R19, R22, R66). -/
def Obligations.RegistersChangedOnlyByTheirInstructions : Prop :=
  ∀ (i : Instr) (s t : State), exec i s = .next t →
    (t.a ≠ s.a → (∃ b, i = .ldaImm b) ∨ (∃ b, i = .ldaZp b) ∨ (∃ w, i = .ldaAbs w) ∨ i = .txa ∨ i = .tya ∨ i = .pla) ∧
    (t.x ≠ s.x → (∃ b, i = .ldxImm b) ∨ i = .tax ∨ i = .tsx ∨ i = .inx ∨ i = .dex) ∧
    (t.y ≠ s.y → (∃ b, i = .ldyImm b) ∨ i = .tay ∨ i = .iny ∨ i = .dey) ∧
    (t.sp ≠ s.sp → i = .txs ∨ i = .pha ∨ i = .php ∨ i = .pla ∨ i = .plp ∨ (∃ w, i = .jsr w) ∨ i = .rts) ∧
    (t.halted ≠ s.halted → i = .hlt) ∧ t.queue = s.queue ∧ t.diagValid = s.diagValid ∧ t.diagOpcode = s.diagOpcode ∧
    t.ir = opcode i ∧ (t.t0 ≠ s.t0 → instrFormat i = .zp ∨ instrFormat i = .rel ∨ instrFormat i = .abs ∨ i = .rts) ∧
    (t.t1 ≠ s.t1 → instrFormat i = .abs ∨ i = .rts)

/-- Each flag is written by the instructions R13 lists and by no other. -/
def Obligations.FlagsChangedOnlyByTheirInstructions : Prop :=
  ∀ (i : Instr) (s t : State), exec i s = .next t →
    (t.flags.c ≠ s.flags.c → i = .clc ∨ i = .sec ∨ i = .plp) ∧
    (t.flags.i ≠ s.flags.i → i = .cli ∨ i = .sei ∨ i = .plp) ∧
    (t.flags.d ≠ s.flags.d → i = .cld ∨ i = .sed ∨ i = .plp) ∧
    (t.flags.v ≠ s.flags.v → i = .clv ∨ i = .plp) ∧
    (t.flags.z ≠ s.flags.z ∨ t.flags.n ≠ s.flags.n →
      (∃ b, i = .ldaImm b) ∨ (∃ b, i = .ldaZp b) ∨ (∃ w, i = .ldaAbs w) ∨ i = .tax ∨ i = .tay ∨ i = .txa ∨ i = .tya ∨
        i = .tsx ∨ i = .inx ∨ i = .iny ∨ i = .dex ∨ i = .dey ∨ i = .pla ∨ i = .plp)

/-- Every byte outside the addresses an instruction stores to, and their mirrors, reads as before; an instruction that stores nothing
leaves all of memory (R42, R44, R47). -/
def Obligations.MemoryChangedOnlyAtStoredAddresses : Prop :=
  ∀ (i : Instr) (s t : State), exec i s = .next t →
    (∀ addr : Word, (∀ b ∈ storedAddresses i s, sameCell b addr = false) → hostRead t addr = hostRead s addr) ∧
    (storedAddresses i s = [] → t.mem = s.mem)

/-- The byte each store leaves: the register, the status byte, or the bytes of the return address, at every address that names the
stored byte; at or above 0x8000 the old byte (R42, R44, R161, R162, R174). The premise is the model's invariant on memory. -/
def Obligations.StoredBytesReadBack : Prop :=
  ∀ (s : State), s.mem.wf = true →
    (∀ (zp : Byte) (addr : Word), sameCell (zpAddress zp) addr = true →
      (∀ t, exec (.staZp zp) s = .next t → hostRead t addr = s.a) ∧
      (∀ t, exec (.stxZp zp) s = .next t → hostRead t addr = s.x) ∧
      (∀ t, exec (.styZp zp) s = .next t → hostRead t addr = s.y)) ∧
    (∀ (w addr : Word), sameCell w addr = true →
      (∀ t, exec (.staAbs w) s = .next t → hostRead t addr = if w.toNat < 0x8000 then s.a else hostRead s addr) ∧
      (∀ t, exec (.stxAbs w) s = .next t → hostRead t addr = if w.toNat < 0x8000 then s.x else hostRead s addr) ∧
      (∀ t, exec (.styAbs w) s = .next t → hostRead t addr = if w.toNat < 0x8000 then s.y else hostRead s addr)) ∧
    (∀ addr : Word, sameCell (stackAddress s.sp) addr = true →
      (∀ t, exec .pha s = .next t → hostRead t addr = s.a) ∧
      (∀ t, exec .php s = .next t → hostRead t addr = toByte s.flags) ∧
      (∀ w t, exec (.jsr w) s = .next t → hostRead t addr = hi8 (s.pc + 2))) ∧
    (∀ addr : Word, sameCell (stackAddress (s.sp - 1)) addr = true →
      ∀ w t, exec (.jsr w) s = .next t → hostRead t addr = lo8 (s.pc + 2))

/-! ## Round trips -/

/-- JSR then RTS: the program counter is at the instruction after the JSR and the stack pointer is back, at every stack level (R174,
R175). The premise is the model's invariant on memory. -/
def Obligations.ReturnUndoesCall : Prop :=
  ∀ (s u : State) (w : Word), s.mem.wf = true → exec (.jsr w) s = .next u →
    ∃ t, exec .rts u = .next t ∧ t.pc = s.pc + 3 ∧ t.sp = s.sp ∧ t.a = s.a ∧ t.x = s.x ∧ t.y = s.y ∧ t.flags = s.flags

/-- PHA then PLA restores A whatever A and the flags became in between, and PHP then PLP restores all six flags; both restore the stack
pointer (R161 to R164). The premise is the model's invariant on memory. -/
def Obligations.PullUndoesPush : Prop :=
  ∀ (s u : State), s.mem.wf = true →
    (exec .pha s = .next u → ∀ (a : Byte) (f : Flags),
      ∃ t, exec .pla { u with a := a, flags := f } = .next t ∧ t.a = s.a ∧ t.sp = s.sp ∧ t.flags = setZN s.a f) ∧
    (exec .php s = .next u → ∀ (a : Byte) (f : Flags),
      ∃ t, exec .plp { u with a := a, flags := f } = .next t ∧ t.flags = s.flags ∧ t.sp = s.sp ∧ t.a = a)

/-! ## The whole machine -/

/-- Every instruction takes exactly its number of steps and has exactly its effect: from the fetch, `cycles i s` steps give what `exec i`
answers, the queue is empty then and at no step before, and in between the machine runs with `i`'s opcode in `IR` (R84,
R86, R227). -/
def Obligations.EveryInstructionRunsInItsSteps : Prop :=
  ∀ (s : State) (i : Instr), Fetches s i →
    (∃ t, exec i s = .next t ∧ runCycles (cycles i s) s = .next t ∧ t.queue = []) ∧
    ∀ k, 0 < k → k < cycles i s →
      ∃ u, runCycles k s = .next u ∧ u.queue ≠ [] ∧ u.halted = false ∧ u.ir = opcode i

/-- The cycle-stepped machine and the instruction-stepped one agree: from a boundary, `n` instructions, unknown opcodes and the halted
state included, are the sum of their step counts of clock cycles (R84, R227). -/
def Obligations.CycleMachineRefinesInstructionMachine : Prop :=
  ∀ (n : Nat) (s : State), s.queue = [] → runCycles (totalCycles n s) s = runInstructions n s

/-- Every step keeps the invariant: memory in canonical form, the queue a suffix of the decode list of `IR` or padding, and at the halt
an empty queue with the cause in the diagnostic register (R116, R203, R204). -/
def Obligations.EveryStepKeepsInvariant : Prop :=
  ∀ s t : State, Inv s → step s = .next t → Inv t

/-- The invariant holds after the reset with any image, and in `State.reset`, which stands for the reset with the all-zero image (the
model's choice, assumption 12). -/
def Obligations.ResetEstablishesInvariant : Prop :=
  (∀ img : Image, Inv (resetImage img)) ∧ Inv State.reset

/-- With the invariant, the queue holds at most `QDEPTH` = 5 micro-ops, each in a combination a decode list uses (R85, R113). -/
def Obligations.QueueNeverExceedsItsDepth : Prop :=
  ∀ s : State, Inv s → s.queue.length ≤ Config.queueDepth ∧ ∀ m ∈ s.queue, m.wellFormed = true

/-- Every instruction that has started completes: with the invariant, at most five steps lead to an instruction boundary or the halt
(R86). -/
def Obligations.BoundaryIsReachedWithinFiveSteps : Prop :=
  ∀ s : State, Inv s → ∃ k t, k ≤ 5 ∧ runCycles k s = .next t ∧ t.queue = []

/-- Only the two halting micro-ops halt the machine; that step changes only `halted` and, for an unknown opcode, the diagnostic register,
and leaves the queue empty (R200, R201, R202, R204). -/
def Obligations.OnlyHaltMicroOpsHalt : Prop :=
  ∀ s t : State, Inv s → s.halted = false → step s = .next t → t.halted = true →
    (s.queue = [.halt] ∧ t = { s with queue := [], halted := true }) ∨
    (s.queue = [.haltUnknown] ∧
      t = { s with queue := [], halted := true, diagValid := true, diagOpcode := s.ir })

/-- After the halt the cause is read from the diagnostic register: an HLT, or the unknown byte (R203). -/
def Obligations.HaltCauseIsReadable : Prop :=
  ∀ s : State, Inv s →
    (∀ t, Fetches s .hlt → runCycles 2 s = .next t → runStatus t = .haltedByHlt) ∧
    (∀ op t, s.halted = false → s.queue = [] → decodeAtPc s = .unknownOpcode op → runCycles 2 s = .next t →
      runStatus t = .haltedByUnknown op)

/-- The overflow flag becomes 1 only in a step that runs `PullP` (R13: "no instruction sets it to 1 except PLP"). -/
def Obligations.OverflowSetOnlyByPull : Prop :=
  ∀ s t : State, Inv s → step s = .next t → s.flags.v = false → t.flags.v = true →
    ∃ q, s.queue = .pullP :: q

/-- A step writes memory exactly as its one access says: the byte written, or nothing (R47, R114). -/
def Obligations.StepWritesOnlyItsAccess : Prop :=
  ∀ s t : State, step s = .next t →
    (∀ addr v, stepAccess s = some (.write addr v) → t.mem = memWrite s.mem addr v) ∧
    ((∀ addr v, stepAccess s ≠ some (.write addr v)) → t.mem = s.mem)

/-- A step reads memory exactly at its one access: with any other memory that agrees at the address read, everything but memory comes out
the same (R47, R114). -/
def Obligations.StepReadsOnlyItsAccess : Prop :=
  ∀ (s : State) (m : Memory), (∀ addr, stepAccess s = some (.read addr) → memRead m addr = memRead s.mem addr) →
    ∃ t u, step s = .next t ∧ step { s with mem := m } = .next u ∧ u = { t with mem := u.mem }

/-- The number of memory accesses of each instruction (R227, second column). -/
def Obligations.AccessesPerInstruction : Prop :=
  ∀ (s : State) (i : Instr), Fetches s i → (accessTrace (cycles i s) s).length = accessCount i

/-- `IR` and the scratch bytes at a boundary are hidden: two machines that differ in nothing else stay alike to the host for ever, in
registers, flags, halt, diagnostic and every byte of memory (R22, R24, R115). -/
def Obligations.ScratchAndOpcodeRegisterAreHidden : Prop :=
  ∀ (s : State) (ir t0 t1 : Byte) (n : Nat), s.queue = [] →
    ∃ t u, runCycles n s = .next t ∧ runCycles n { s with ir := ir, t0 := t0, t1 := t1 } = .next u ∧
      observe t = observe u ∧ ∀ addr : Word, hostRead t addr = hostRead u addr

/-- The end of a run does not depend on how long the host is willing to go on: once the loop of R229 has seen the halt, more fuel changes
neither the state nor the count, and the state is that of as many clock cycles. -/
def Obligations.HostLoopEndsAtTheHalt : Prop :=
  ∀ (n k : Nat) (s : State), (hostLoop n s).1.halted = true →
    hostLoop (n + k) s = hostLoop n s ∧ runCycles (hostLoop n s).2 s = .next (hostLoop n s).1 ∧
    runCycles ((hostLoop n s).2 + k) s = .next (hostLoop n s).1

/-- The flags `I` and `D` are storage only: two machines that differ in them alone stay alike in everything but those flags, as long
as the step is not the one that writes the status byte to memory (R28; the spec's decision D17, assumption 16). The premise `Inv`
rules out queues that no decode list gives, a branch on `I` or `D` among them. -/
def Obligations.InterruptAndDecimalFlagsChangeNothing : Prop :=
  ∀ (s : State) (i d : Bool), Inv s → s.queue.head? ≠ some .pushP →
    ∃ t u, step s = .next t ∧ step { s with flags := { s.flags with i := i, d := d } } = .next u ∧
      t = { u with flags := { u.flags with i := t.flags.i, d := t.flags.d } }

/-- Where a table word is put is where the next step fetches: after `withFetchWord` the machine stands at a boundary whose bytes decode to
the instruction the word stands for, at every `PC`, in RAM, in ROM and across the end of the address space (the model's own loading
function, assumption 14; R46, R60). -/
def Obligations.FetchWordIsFetchedNext : Prop :=
  ∀ (s : State) (nbits w : Nat) (i : Instr), s.mem.wf = true → decodeTableWord nbits w = some i →
    Fetches (s.withFetchWord nbits w) i ∧ (s.withFetchWord nbits w).mem.wf = true ∧
    (s.withFetchWord nbits w).pc = s.pc
end

