-- ==== Sys2Proof/Laws/Flags.lean ====
section
/-! SUPPORT. What each flag computation says of each flag (spec/10_state.md R14 to R16). -/

namespace Sys2Proof.Machine

@[simp] theorem setZN_c (v : Byte) (fl : Flags) : (setZN v fl).c = fl.c := rfl
@[simp] theorem setZN_i (v : Byte) (fl : Flags) : (setZN v fl).i = fl.i := rfl
@[simp] theorem setZN_d (v : Byte) (fl : Flags) : (setZN v fl).d = fl.d := rfl
@[simp] theorem setZN_v (v : Byte) (fl : Flags) : (setZN v fl).v = fl.v := rfl
@[simp] theorem setZN_z (v : Byte) (fl : Flags) : (setZN v fl).z = (v == 0) := rfl
@[simp] theorem setZN_n (v : Byte) (fl : Flags) : (setZN v fl).n = v.getLsbD 7 := rfl

/-- A flag that is set reads as what it was set to. -/
theorem flagGet_flagSet_same (f : Flag) (b : Bool) (fl : Flags) : flagGet f (flagSet f b fl) = b := by
  cases f <;> rfl

/-- Setting a flag leaves every other flag alone. -/
theorem flagGet_flagSet_other {f g : Flag} (h : f ≠ g) (b : Bool) (fl : Flags) : flagGet g (flagSet f b fl) = flagGet g fl := by
  cases f <;> cases g <;> first | rfl | exact absurd rfl h

end Sys2Proof.Machine
end

