-- ==== Sys2Proof/Laws/Memory.lean ====
section
/-! SUPPORT. Cells and memory: read after write, everything else unchanged, and the canonical form kept by every operation. -/

namespace Sys2Proof.Machine

/-! ## One array -/

theorem cellsRead_below {size : Nat} {cs : List Host.Cell} {lo : Nat} (h : cellsWf size lo cs = true) {i : Nat} (hi : i < lo) :
    cellsRead cs i = unlistedByte := by
  induction cs generalizing lo with
  | nil => rfl
  | cons c cs ih =>
    obtain ⟨k, b⟩ := c
    simp only [cellsWf, Bool.and_eq_true, decide_eq_true_eq] at h
    simp only [cellsRead, if_neg (show k ≠ i by omega)]
    exact ih h.2 (by omega)

theorem cellsWf_mono {size : Nat} {cs : List Host.Cell} {lo lo' : Nat} (h : cellsWf size lo cs = true) (hl : lo' ≤ lo) :
    cellsWf size lo' cs = true := by
  cases cs with
  | nil => rfl
  | cons c cs =>
    obtain ⟨k, b⟩ := c
    simp only [cellsWf, Bool.and_eq_true, decide_eq_true_eq] at h ⊢
    exact ⟨⟨⟨by omega, h.1.1.2⟩, h.1.2⟩, h.2⟩

/-- A read of the written index gives the written byte. -/
theorem cellsRead_cellsWrite_same {size : Nat} {cs : List Host.Cell} {lo : Nat} (h : cellsWf size lo cs = true) (i : Nat)
    (v : Byte) : cellsRead (cellsWrite i v cs) i = v := by
  induction cs generalizing lo with
  | nil => by_cases hv : v = unlistedByte <;> simp [cellsWrite, cellsRead, hv]
  | cons c cs ih =>
    obtain ⟨k, b⟩ := c
    simp only [cellsWf, Bool.and_eq_true, decide_eq_true_eq] at h
    by_cases h1 : i < k
    · by_cases hv : v = unlistedByte
      · simp [cellsWrite, h1, hv, cellsRead, show k ≠ i by omega, cellsRead_below h.2 (show i < k + 1 by omega)]
      · simp [cellsWrite, h1, hv, cellsRead]
    · by_cases h2 : i = k
      · by_cases hv : v = unlistedByte
        · simp [cellsWrite, h2, hv, cellsRead_below h.2 (show k < k + 1 by omega)]
        · simp [cellsWrite, h2, hv, cellsRead]
      · simp [cellsWrite, h1, h2, cellsRead, show k ≠ i by omega, ih h.2]

/-- A write leaves every other index alone. -/
theorem cellsRead_cellsWrite_other {cs : List Host.Cell} {i j : Nat} (hij : i ≠ j) (v : Byte) :
    cellsRead (cellsWrite i v cs) j = cellsRead cs j := by
  induction cs with
  | nil => by_cases hv : v = unlistedByte <;> simp [cellsWrite, cellsRead, hv, hij]
  | cons c cs ih =>
    obtain ⟨k, b⟩ := c
    simp only [cellsWrite]
    split_ifs with h1 hv h2 hv2
    · rfl
    · simp [cellsRead, hij]
    · simp [cellsRead, show k ≠ j by omega]
    · simp [cellsRead, hij, show k ≠ j by omega]
    · simp [cellsRead, ih]

/-- A write keeps the canonical form. -/
theorem cellsWf_cellsWrite {size : Nat} {cs : List Host.Cell} {lo : Nat} (h : cellsWf size lo cs = true) {i : Nat} (hlo : lo ≤ i)
    (hi : i < size) (v : Byte) : cellsWf size lo (cellsWrite i v cs) = true := by
  induction cs generalizing lo with
  | nil => by_cases hv : v = unlistedByte <;> simp [cellsWrite, cellsWf, hv, hlo, hi]
  | cons c cs ih =>
    obtain ⟨k, b⟩ := c
    simp only [cellsWf, Bool.and_eq_true, decide_eq_true_eq] at h
    simp only [cellsWrite]
    split_ifs with h1 hv h2 hv2
    · simp [cellsWf, h]
    · simp only [cellsWf, Bool.and_eq_true, decide_eq_true_eq, bne_iff_ne, ne_eq]
      exact ⟨⟨⟨hlo, hi⟩, hv⟩, ⟨⟨by omega, h.1.1.2⟩, by simpa using h.1.2⟩, h.2⟩
    · exact cellsWf_mono h.2 (by omega)
    · simp only [cellsWf, Bool.and_eq_true, decide_eq_true_eq, bne_iff_ne, ne_eq]
      exact ⟨⟨⟨hlo, hi⟩, hv2⟩, h2 ▸ h.2⟩
    · simp only [cellsWf, Bool.and_eq_true, decide_eq_true_eq]
      exact ⟨h.1, ih h.2 (by omega)⟩

/-! ## The whole memory -/

theorem isRom_true_iff (addr : Word) : isRom addr = true ↔ 0x8000 ≤ addr.toNat := by
  unfold isRom
  exact decide_eq_true_iff

theorem isRom_false_iff (addr : Word) : isRom addr = false ↔ addr.toNat < 0x8000 := by
  unfold isRom
  exact decide_eq_false_iff_not.trans Nat.not_le

/-- A read of RAM or of ROM (R41). -/
theorem memRead_ram {m : Memory} {addr : Word} (h : addr.toNat < 0x8000) : memRead m addr = cellsRead m.ram (ramIndex addr) := by
  simp only [memRead, (isRom_false_iff addr).2 h, Bool.false_eq_true, if_false]

theorem memRead_rom {m : Memory} {addr : Word} (h : 0x8000 ≤ addr.toNat) : memRead m addr = cellsRead m.rom (romIndex addr) := by
  simp only [memRead, (isRom_true_iff addr).2 h, if_true]

/-- A write of RAM or of ROM (R42). -/
theorem memWrite_ram {m : Memory} {addr : Word} (h : addr.toNat < 0x8000) (v : Byte) :
    memWrite m addr v = { m with ram := cellsWrite (ramIndex addr) v m.ram } := by
  simp only [memWrite, (isRom_false_iff addr).2 h, Bool.false_eq_true, if_false]

theorem ramIndex_lt (addr : Word) : ramIndex addr < Config.ramSize := Nat.mod_lt _ (by decide)

theorem romIndex_lt (addr : Word) : romIndex addr < Config.romSize := by
  have := addr.isLt
  simp only [romIndex, Config.romSize, Config.romBase]
  omega

/-- `MemWrite` keeps the canonical form. -/
theorem memWrite_wf {m : Memory} (h : m.wf = true) (addr : Word) (v : Byte) : (memWrite m addr v).wf = true := by
  simp only [Memory.wf, Bool.and_eq_true] at h
  by_cases hr : isRom addr = true
  · simp [memWrite, hr, Memory.wf, h]
  · simp [memWrite, hr, Memory.wf, h, cellsWf_cellsWrite h.1 (Nat.zero_le _) (ramIndex_lt addr)]

/-- Loading a byte from outside keeps the canonical form. -/
theorem memLoad_wf {m : Memory} (h : m.wf = true) (addr : Word) (v : Byte) : (memLoad m addr v).wf = true := by
  simp only [Memory.wf, Bool.and_eq_true] at h
  by_cases hr : isRom addr = true
  · simp [memLoad, hr, Memory.wf, h, cellsWf_cellsWrite h.2 (Nat.zero_le _) (romIndex_lt addr)]
  · simp [memLoad, hr, Memory.wf, h, cellsWf_cellsWrite h.1 (Nat.zero_le _) (ramIndex_lt addr)]

theorem memLoadList_wf {m : Memory} (h : m.wf = true) (addr : Word) (bs : List Byte) : (memLoadList m addr bs).wf = true := by
  induction bs generalizing m addr with
  | nil => exact h
  | cons b bs ih => exact ih (memLoad_wf h addr b) (addr + 1)

/-- No step writes ROM (R42). -/
@[simp] theorem memWrite_rom (m : Memory) (addr : Word) (v : Byte) : (memWrite m addr v).rom = m.rom := by
  simp only [memWrite]
  split <;> rfl

/-- The memory of `State.reset` has the canonical form. -/
theorem reset_mem_wf : State.reset.mem.wf = true := rfl

/-! ## The memory of any reset -/

theorem cellsWf_cellsOf (f : Nat → Byte) (size n lo : Nat) (h : lo + n ≤ size) : cellsWf size lo (cellsOf f lo n) = true := by
  induction n generalizing lo with
  | zero => rfl
  | succ n ih =>
    have ih' := ih (lo + 1) (by omega)
    by_cases hf : f lo = unlistedByte
    · simpa [cellsOf, hf] using cellsWf_mono ih' (Nat.le_succ lo)
    · simp [cellsOf, hf, cellsWf, ih', show lo < size by omega]

theorem cellsRead_cellsOf (f : Nat → Byte) (n lo i : Nat) (h1 : lo ≤ i) (h2 : i < lo + n) : cellsRead (cellsOf f lo n) i = f i := by
  induction n generalizing lo with
  | zero => omega
  | succ n ih =>
    by_cases hi : lo = i
    · subst hi
      by_cases hf : f lo = unlistedByte
      · simp only [cellsOf, hf, if_true]
        exact cellsRead_below (cellsWf_cellsOf f (lo + 1 + n) n (lo + 1) le_rfl) (Nat.lt_succ_self lo)
      · simp [cellsOf, hf, cellsRead]
    · have := ih (lo + 1) (by omega) (by omega)
      by_cases hf : f lo = unlistedByte
      · simpa [cellsOf, hf] using this
      · simpa [cellsOf, hf, cellsRead, hi] using this

theorem cellsOf_unlisted {f : Nat → Byte} (h : ∀ i, f i = unlistedByte) (n lo : Nat) : cellsOf f lo n = [] := by
  induction n generalizing lo with
  | zero => rfl
  | succ n ih => simp [cellsOf, h, ih]

/-- `ROM[i] = image[16 + i]` (R54). -/
theorem cellsRead_romCells (img : Image) {i : Nat} (h : i < Config.romSize) :
    cellsRead (romCells img) i = imageByte img (Config.headerSize + i) := by
  unfold romCells
  exact cellsRead_cellsOf (fun i => imageByte img (Config.headerSize + i)) Config.romSize 0 i (Nat.zero_le _) (by omega)

theorem resetMemory_ram (img : Image) : (resetMemory img).ram = [] := by simp only [resetMemory]
theorem resetMemory_rom (img : Image) : (resetMemory img).rom = romCells img := by simp only [resetMemory]
theorem resetImage_mem (img : Image) : (resetImage img).mem = resetMemory img := by simp only [resetImage]

theorem resetMemory_wf (img : Image) : (resetMemory img).wf = true := by
  rw [Memory.wf, resetMemory_ram, resetMemory_rom, romCells, cellsWf_cellsOf _ _ _ _ (by decide)]
  rfl

theorem imageByte_blank (k : Nat) : imageByte blankImage k = unlistedByte := by
  simp only [imageByte, blankImage, Vector.getElem?_replicate]
  split <;> rfl

theorem romCells_blank : romCells blankImage = [] :=
  cellsOf_unlisted (fun _ => imageByte_blank _) _ _

/-- `State.reset` is `Reset` of the all-zero image. -/
theorem reset_eq_resetImage : State.reset = resetImage blankImage := by
  simp only [State.reset, resetImage, resetMemory, romCells_blank]
  rfl

end Sys2Proof.Machine
end

