-- ==== Sys2Proof/Laws/State.lean ====
section
/-! SUPPORT. One lemma per field per update of State, so that no proof unfolds a record update. -/

namespace Sys2Proof.Machine.State

@[simp] theorem withA_a (s : State) (v : Byte) : (s.withA v).a = v := rfl
@[simp] theorem withA_x (s : State) (v : Byte) : (s.withA v).x = s.x := rfl
@[simp] theorem withA_y (s : State) (v : Byte) : (s.withA v).y = s.y := rfl
@[simp] theorem withA_pc (s : State) (v : Byte) : (s.withA v).pc = s.pc := rfl
@[simp] theorem withA_sp (s : State) (v : Byte) : (s.withA v).sp = s.sp := rfl
@[simp] theorem withA_flags (s : State) (v : Byte) : (s.withA v).flags = s.flags := rfl
@[simp] theorem withA_ir (s : State) (v : Byte) : (s.withA v).ir = s.ir := rfl
@[simp] theorem withA_t0 (s : State) (v : Byte) : (s.withA v).t0 = s.t0 := rfl
@[simp] theorem withA_t1 (s : State) (v : Byte) : (s.withA v).t1 = s.t1 := rfl
@[simp] theorem withA_queue (s : State) (v : Byte) : (s.withA v).queue = s.queue := rfl
@[simp] theorem withA_halted (s : State) (v : Byte) : (s.withA v).halted = s.halted := rfl
@[simp] theorem withA_diagValid (s : State) (v : Byte) : (s.withA v).diagValid = s.diagValid := rfl
@[simp] theorem withA_diagOpcode (s : State) (v : Byte) : (s.withA v).diagOpcode = s.diagOpcode := rfl
@[simp] theorem withA_mem (s : State) (v : Byte) : (s.withA v).mem = s.mem := rfl

@[simp] theorem withX_a (s : State) (v : Byte) : (s.withX v).a = s.a := rfl
@[simp] theorem withX_x (s : State) (v : Byte) : (s.withX v).x = v := rfl
@[simp] theorem withX_y (s : State) (v : Byte) : (s.withX v).y = s.y := rfl
@[simp] theorem withX_pc (s : State) (v : Byte) : (s.withX v).pc = s.pc := rfl
@[simp] theorem withX_sp (s : State) (v : Byte) : (s.withX v).sp = s.sp := rfl
@[simp] theorem withX_flags (s : State) (v : Byte) : (s.withX v).flags = s.flags := rfl
@[simp] theorem withX_ir (s : State) (v : Byte) : (s.withX v).ir = s.ir := rfl
@[simp] theorem withX_t0 (s : State) (v : Byte) : (s.withX v).t0 = s.t0 := rfl
@[simp] theorem withX_t1 (s : State) (v : Byte) : (s.withX v).t1 = s.t1 := rfl
@[simp] theorem withX_queue (s : State) (v : Byte) : (s.withX v).queue = s.queue := rfl
@[simp] theorem withX_halted (s : State) (v : Byte) : (s.withX v).halted = s.halted := rfl
@[simp] theorem withX_diagValid (s : State) (v : Byte) : (s.withX v).diagValid = s.diagValid := rfl
@[simp] theorem withX_diagOpcode (s : State) (v : Byte) : (s.withX v).diagOpcode = s.diagOpcode := rfl
@[simp] theorem withX_mem (s : State) (v : Byte) : (s.withX v).mem = s.mem := rfl

@[simp] theorem withY_a (s : State) (v : Byte) : (s.withY v).a = s.a := rfl
@[simp] theorem withY_x (s : State) (v : Byte) : (s.withY v).x = s.x := rfl
@[simp] theorem withY_y (s : State) (v : Byte) : (s.withY v).y = v := rfl
@[simp] theorem withY_pc (s : State) (v : Byte) : (s.withY v).pc = s.pc := rfl
@[simp] theorem withY_sp (s : State) (v : Byte) : (s.withY v).sp = s.sp := rfl
@[simp] theorem withY_flags (s : State) (v : Byte) : (s.withY v).flags = s.flags := rfl
@[simp] theorem withY_ir (s : State) (v : Byte) : (s.withY v).ir = s.ir := rfl
@[simp] theorem withY_t0 (s : State) (v : Byte) : (s.withY v).t0 = s.t0 := rfl
@[simp] theorem withY_t1 (s : State) (v : Byte) : (s.withY v).t1 = s.t1 := rfl
@[simp] theorem withY_queue (s : State) (v : Byte) : (s.withY v).queue = s.queue := rfl
@[simp] theorem withY_halted (s : State) (v : Byte) : (s.withY v).halted = s.halted := rfl
@[simp] theorem withY_diagValid (s : State) (v : Byte) : (s.withY v).diagValid = s.diagValid := rfl
@[simp] theorem withY_diagOpcode (s : State) (v : Byte) : (s.withY v).diagOpcode = s.diagOpcode := rfl
@[simp] theorem withY_mem (s : State) (v : Byte) : (s.withY v).mem = s.mem := rfl

@[simp] theorem withPc_a (s : State) (v : Word) : (s.withPc v).a = s.a := rfl
@[simp] theorem withPc_x (s : State) (v : Word) : (s.withPc v).x = s.x := rfl
@[simp] theorem withPc_y (s : State) (v : Word) : (s.withPc v).y = s.y := rfl
@[simp] theorem withPc_pc (s : State) (v : Word) : (s.withPc v).pc = v := rfl
@[simp] theorem withPc_sp (s : State) (v : Word) : (s.withPc v).sp = s.sp := rfl
@[simp] theorem withPc_flags (s : State) (v : Word) : (s.withPc v).flags = s.flags := rfl
@[simp] theorem withPc_ir (s : State) (v : Word) : (s.withPc v).ir = s.ir := rfl
@[simp] theorem withPc_t0 (s : State) (v : Word) : (s.withPc v).t0 = s.t0 := rfl
@[simp] theorem withPc_t1 (s : State) (v : Word) : (s.withPc v).t1 = s.t1 := rfl
@[simp] theorem withPc_queue (s : State) (v : Word) : (s.withPc v).queue = s.queue := rfl
@[simp] theorem withPc_halted (s : State) (v : Word) : (s.withPc v).halted = s.halted := rfl
@[simp] theorem withPc_diagValid (s : State) (v : Word) : (s.withPc v).diagValid = s.diagValid := rfl
@[simp] theorem withPc_diagOpcode (s : State) (v : Word) : (s.withPc v).diagOpcode = s.diagOpcode := rfl
@[simp] theorem withPc_mem (s : State) (v : Word) : (s.withPc v).mem = s.mem := rfl

@[simp] theorem withSp_a (s : State) (v : Byte) : (s.withSp v).a = s.a := rfl
@[simp] theorem withSp_x (s : State) (v : Byte) : (s.withSp v).x = s.x := rfl
@[simp] theorem withSp_y (s : State) (v : Byte) : (s.withSp v).y = s.y := rfl
@[simp] theorem withSp_pc (s : State) (v : Byte) : (s.withSp v).pc = s.pc := rfl
@[simp] theorem withSp_sp (s : State) (v : Byte) : (s.withSp v).sp = v := rfl
@[simp] theorem withSp_flags (s : State) (v : Byte) : (s.withSp v).flags = s.flags := rfl
@[simp] theorem withSp_ir (s : State) (v : Byte) : (s.withSp v).ir = s.ir := rfl
@[simp] theorem withSp_t0 (s : State) (v : Byte) : (s.withSp v).t0 = s.t0 := rfl
@[simp] theorem withSp_t1 (s : State) (v : Byte) : (s.withSp v).t1 = s.t1 := rfl
@[simp] theorem withSp_queue (s : State) (v : Byte) : (s.withSp v).queue = s.queue := rfl
@[simp] theorem withSp_halted (s : State) (v : Byte) : (s.withSp v).halted = s.halted := rfl
@[simp] theorem withSp_diagValid (s : State) (v : Byte) : (s.withSp v).diagValid = s.diagValid := rfl
@[simp] theorem withSp_diagOpcode (s : State) (v : Byte) : (s.withSp v).diagOpcode = s.diagOpcode := rfl
@[simp] theorem withSp_mem (s : State) (v : Byte) : (s.withSp v).mem = s.mem := rfl

@[simp] theorem withFlags_a (s : State) (v : Flags) : (s.withFlags v).a = s.a := rfl
@[simp] theorem withFlags_x (s : State) (v : Flags) : (s.withFlags v).x = s.x := rfl
@[simp] theorem withFlags_y (s : State) (v : Flags) : (s.withFlags v).y = s.y := rfl
@[simp] theorem withFlags_pc (s : State) (v : Flags) : (s.withFlags v).pc = s.pc := rfl
@[simp] theorem withFlags_sp (s : State) (v : Flags) : (s.withFlags v).sp = s.sp := rfl
@[simp] theorem withFlags_flags (s : State) (v : Flags) : (s.withFlags v).flags = v := rfl
@[simp] theorem withFlags_ir (s : State) (v : Flags) : (s.withFlags v).ir = s.ir := rfl
@[simp] theorem withFlags_t0 (s : State) (v : Flags) : (s.withFlags v).t0 = s.t0 := rfl
@[simp] theorem withFlags_t1 (s : State) (v : Flags) : (s.withFlags v).t1 = s.t1 := rfl
@[simp] theorem withFlags_queue (s : State) (v : Flags) : (s.withFlags v).queue = s.queue := rfl
@[simp] theorem withFlags_halted (s : State) (v : Flags) : (s.withFlags v).halted = s.halted := rfl
@[simp] theorem withFlags_diagValid (s : State) (v : Flags) : (s.withFlags v).diagValid = s.diagValid := rfl
@[simp] theorem withFlags_diagOpcode (s : State) (v : Flags) : (s.withFlags v).diagOpcode = s.diagOpcode := rfl
@[simp] theorem withFlags_mem (s : State) (v : Flags) : (s.withFlags v).mem = s.mem := rfl

@[simp] theorem withIr_a (s : State) (v : Byte) : (s.withIr v).a = s.a := rfl
@[simp] theorem withIr_x (s : State) (v : Byte) : (s.withIr v).x = s.x := rfl
@[simp] theorem withIr_y (s : State) (v : Byte) : (s.withIr v).y = s.y := rfl
@[simp] theorem withIr_pc (s : State) (v : Byte) : (s.withIr v).pc = s.pc := rfl
@[simp] theorem withIr_sp (s : State) (v : Byte) : (s.withIr v).sp = s.sp := rfl
@[simp] theorem withIr_flags (s : State) (v : Byte) : (s.withIr v).flags = s.flags := rfl
@[simp] theorem withIr_ir (s : State) (v : Byte) : (s.withIr v).ir = v := rfl
@[simp] theorem withIr_t0 (s : State) (v : Byte) : (s.withIr v).t0 = s.t0 := rfl
@[simp] theorem withIr_t1 (s : State) (v : Byte) : (s.withIr v).t1 = s.t1 := rfl
@[simp] theorem withIr_queue (s : State) (v : Byte) : (s.withIr v).queue = s.queue := rfl
@[simp] theorem withIr_halted (s : State) (v : Byte) : (s.withIr v).halted = s.halted := rfl
@[simp] theorem withIr_diagValid (s : State) (v : Byte) : (s.withIr v).diagValid = s.diagValid := rfl
@[simp] theorem withIr_diagOpcode (s : State) (v : Byte) : (s.withIr v).diagOpcode = s.diagOpcode := rfl
@[simp] theorem withIr_mem (s : State) (v : Byte) : (s.withIr v).mem = s.mem := rfl

@[simp] theorem withT0_a (s : State) (v : Byte) : (s.withT0 v).a = s.a := rfl
@[simp] theorem withT0_x (s : State) (v : Byte) : (s.withT0 v).x = s.x := rfl
@[simp] theorem withT0_y (s : State) (v : Byte) : (s.withT0 v).y = s.y := rfl
@[simp] theorem withT0_pc (s : State) (v : Byte) : (s.withT0 v).pc = s.pc := rfl
@[simp] theorem withT0_sp (s : State) (v : Byte) : (s.withT0 v).sp = s.sp := rfl
@[simp] theorem withT0_flags (s : State) (v : Byte) : (s.withT0 v).flags = s.flags := rfl
@[simp] theorem withT0_ir (s : State) (v : Byte) : (s.withT0 v).ir = s.ir := rfl
@[simp] theorem withT0_t0 (s : State) (v : Byte) : (s.withT0 v).t0 = v := rfl
@[simp] theorem withT0_t1 (s : State) (v : Byte) : (s.withT0 v).t1 = s.t1 := rfl
@[simp] theorem withT0_queue (s : State) (v : Byte) : (s.withT0 v).queue = s.queue := rfl
@[simp] theorem withT0_halted (s : State) (v : Byte) : (s.withT0 v).halted = s.halted := rfl
@[simp] theorem withT0_diagValid (s : State) (v : Byte) : (s.withT0 v).diagValid = s.diagValid := rfl
@[simp] theorem withT0_diagOpcode (s : State) (v : Byte) : (s.withT0 v).diagOpcode = s.diagOpcode := rfl
@[simp] theorem withT0_mem (s : State) (v : Byte) : (s.withT0 v).mem = s.mem := rfl

@[simp] theorem withT1_a (s : State) (v : Byte) : (s.withT1 v).a = s.a := rfl
@[simp] theorem withT1_x (s : State) (v : Byte) : (s.withT1 v).x = s.x := rfl
@[simp] theorem withT1_y (s : State) (v : Byte) : (s.withT1 v).y = s.y := rfl
@[simp] theorem withT1_pc (s : State) (v : Byte) : (s.withT1 v).pc = s.pc := rfl
@[simp] theorem withT1_sp (s : State) (v : Byte) : (s.withT1 v).sp = s.sp := rfl
@[simp] theorem withT1_flags (s : State) (v : Byte) : (s.withT1 v).flags = s.flags := rfl
@[simp] theorem withT1_ir (s : State) (v : Byte) : (s.withT1 v).ir = s.ir := rfl
@[simp] theorem withT1_t0 (s : State) (v : Byte) : (s.withT1 v).t0 = s.t0 := rfl
@[simp] theorem withT1_t1 (s : State) (v : Byte) : (s.withT1 v).t1 = v := rfl
@[simp] theorem withT1_queue (s : State) (v : Byte) : (s.withT1 v).queue = s.queue := rfl
@[simp] theorem withT1_halted (s : State) (v : Byte) : (s.withT1 v).halted = s.halted := rfl
@[simp] theorem withT1_diagValid (s : State) (v : Byte) : (s.withT1 v).diagValid = s.diagValid := rfl
@[simp] theorem withT1_diagOpcode (s : State) (v : Byte) : (s.withT1 v).diagOpcode = s.diagOpcode := rfl
@[simp] theorem withT1_mem (s : State) (v : Byte) : (s.withT1 v).mem = s.mem := rfl

@[simp] theorem withQueue_a (s : State) (v : List MicroOp) : (s.withQueue v).a = s.a := rfl
@[simp] theorem withQueue_x (s : State) (v : List MicroOp) : (s.withQueue v).x = s.x := rfl
@[simp] theorem withQueue_y (s : State) (v : List MicroOp) : (s.withQueue v).y = s.y := rfl
@[simp] theorem withQueue_pc (s : State) (v : List MicroOp) : (s.withQueue v).pc = s.pc := rfl
@[simp] theorem withQueue_sp (s : State) (v : List MicroOp) : (s.withQueue v).sp = s.sp := rfl
@[simp] theorem withQueue_flags (s : State) (v : List MicroOp) : (s.withQueue v).flags = s.flags := rfl
@[simp] theorem withQueue_ir (s : State) (v : List MicroOp) : (s.withQueue v).ir = s.ir := rfl
@[simp] theorem withQueue_t0 (s : State) (v : List MicroOp) : (s.withQueue v).t0 = s.t0 := rfl
@[simp] theorem withQueue_t1 (s : State) (v : List MicroOp) : (s.withQueue v).t1 = s.t1 := rfl
@[simp] theorem withQueue_queue (s : State) (v : List MicroOp) : (s.withQueue v).queue = v := rfl
@[simp] theorem withQueue_halted (s : State) (v : List MicroOp) : (s.withQueue v).halted = s.halted := rfl
@[simp] theorem withQueue_diagValid (s : State) (v : List MicroOp) : (s.withQueue v).diagValid = s.diagValid := rfl
@[simp] theorem withQueue_diagOpcode (s : State) (v : List MicroOp) : (s.withQueue v).diagOpcode = s.diagOpcode := rfl
@[simp] theorem withQueue_mem (s : State) (v : List MicroOp) : (s.withQueue v).mem = s.mem := rfl

@[simp] theorem withMem_a (s : State) (v : Memory) : (s.withMem v).a = s.a := rfl
@[simp] theorem withMem_x (s : State) (v : Memory) : (s.withMem v).x = s.x := rfl
@[simp] theorem withMem_y (s : State) (v : Memory) : (s.withMem v).y = s.y := rfl
@[simp] theorem withMem_pc (s : State) (v : Memory) : (s.withMem v).pc = s.pc := rfl
@[simp] theorem withMem_sp (s : State) (v : Memory) : (s.withMem v).sp = s.sp := rfl
@[simp] theorem withMem_flags (s : State) (v : Memory) : (s.withMem v).flags = s.flags := rfl
@[simp] theorem withMem_ir (s : State) (v : Memory) : (s.withMem v).ir = s.ir := rfl
@[simp] theorem withMem_t0 (s : State) (v : Memory) : (s.withMem v).t0 = s.t0 := rfl
@[simp] theorem withMem_t1 (s : State) (v : Memory) : (s.withMem v).t1 = s.t1 := rfl
@[simp] theorem withMem_queue (s : State) (v : Memory) : (s.withMem v).queue = s.queue := rfl
@[simp] theorem withMem_halted (s : State) (v : Memory) : (s.withMem v).halted = s.halted := rfl
@[simp] theorem withMem_diagValid (s : State) (v : Memory) : (s.withMem v).diagValid = s.diagValid := rfl
@[simp] theorem withMem_diagOpcode (s : State) (v : Memory) : (s.withMem v).diagOpcode = s.diagOpcode := rfl
@[simp] theorem withMem_mem (s : State) (v : Memory) : (s.withMem v).mem = v := rfl

end Sys2Proof.Machine.State
end

