-- ==== Sys2Proof/Laws/Ops.lean ====
section
/-! SUPPORT. One lemma for each shared operation: the whole state it leaves, as one update. -/

namespace Sys2Proof.Machine

theorem takeOpcode_eq (op : Byte) (s : State) : takeOpcode op s = { s with ir := op, pc := s.pc + 1 } := rfl
theorem takeLo_eq (b : Byte) (s : State) : takeLo b s = { s with t0 := b, pc := s.pc + 1 } := rfl
theorem takeHi_eq (b : Byte) (s : State) : takeHi b s = { s with t1 := b, pc := s.pc + 1 } := rfl
theorem takeHiNoInc_eq (b : Byte) (s : State) : takeHiNoInc b s = { s with t1 := b } := rfl
theorem takeHiJump_eq (b : Byte) (s : State) : takeHiJump b s = { s with t1 := b, pc := absAddress s.t0 b } := rfl
theorem jumpToT_eq (s : State) : jumpToT s = { s with pc := absAddress s.t0 s.t1 } := rfl
theorem returnToT_eq (s : State) : returnToT s = { s with pc := absAddress s.t0 s.t1 + 1 } := rfl
theorem loadA_eq (v : Byte) (s : State) : loadA v s = { s with a := v, flags := setZN v s.flags } := rfl

theorem pushByte_eq (b : Byte) (s : State) :
    pushByte b s = { s with mem := memWrite s.mem (stackAddress s.sp) b, sp := s.sp - 1 } := rfl

theorem pullToA_eq (s : State) :
    pullToA s = { s with sp := s.sp + 1, a := memRead s.mem (stackAddress (s.sp + 1)),
                         flags := setZN (memRead s.mem (stackAddress (s.sp + 1))) s.flags } := rfl

theorem pullToFlags_eq (s : State) :
    pullToFlags s = { s with sp := s.sp + 1, flags := fromByte (memRead s.mem (stackAddress (s.sp + 1))) } := rfl

theorem pullToT0_eq (s : State) :
    pullToT0 s = { s with sp := s.sp + 1, t0 := memRead s.mem (stackAddress (s.sp + 1)) } := rfl

theorem pullToT1_eq (s : State) :
    pullToT1 s = { s with sp := s.sp + 1, t1 := memRead s.mem (stackAddress (s.sp + 1)) } := rfl

theorem storeToZp_eq (r : Reg) (s : State) :
    storeToZp r s = { s with mem := memWrite s.mem (zpAddress s.t0) (regRead r s) } := rfl

theorem storeToAbs_eq (r : Reg) (s : State) :
    storeToAbs r s = { s with mem := memWrite s.mem (absAddress s.t0 s.t1) (regRead r s) } := rfl

theorem loadFromZp_eq (s : State) :
    loadFromZp s = { s with a := memRead s.mem (zpAddress s.t0), flags := setZN (memRead s.mem (zpAddress s.t0)) s.flags } := rfl

theorem loadFromAbs_eq (s : State) :
    loadFromAbs s = { s with a := memRead s.mem (absAddress s.t0 s.t1),
                             flags := setZN (memRead s.mem (absAddress s.t0 s.t1)) s.flags } := rfl

/-- An immediate load of A, X or Y, with or without flags, in the combinations the decode lists use (R91). -/
theorem takeImm_a_eq (b : Byte) (s : State) :
    takeImm .a true b s = { s with a := b, pc := s.pc + 1, flags := setZN b s.flags } := rfl
theorem takeImm_x_eq (b : Byte) (s : State) : takeImm .x false b s = { s with x := b, pc := s.pc + 1 } := rfl
theorem takeImm_y_eq (b : Byte) (s : State) : takeImm .y false b s = { s with y := b, pc := s.pc + 1 } := rfl

theorem padQueue_eq (k : Nat) (s : State) : padQueue k s = { s with queue := s.queue ++ List.replicate k .nop } := rfl

/-- A written register reads as what was written. -/
theorem regRead_regWrite_same (r : Reg) (v : Byte) (s : State) : regRead r (regWrite r v s) = v := by
  cases r <;> rfl

/-- A register write leaves every other register alone. -/
theorem regRead_regWrite_other {r q : Reg} (h : r ≠ q) (v : Byte) (s : State) : regRead q (regWrite r v s) = regRead q s := by
  cases r <;> cases q <;> first | rfl | exact absurd rfl h

/-- A register write changes no memory, no queue and no control field. -/
theorem regWrite_frame (r : Reg) (v : Byte) (s : State) :
    (regWrite r v s).mem = s.mem ∧ (regWrite r v s).queue = s.queue ∧ (regWrite r v s).flags = s.flags ∧
    (regWrite r v s).pc = s.pc ∧ (regWrite r v s).ir = s.ir ∧ (regWrite r v s).t0 = s.t0 ∧ (regWrite r v s).t1 = s.t1 ∧
    (regWrite r v s).halted = s.halted ∧ (regWrite r v s).diagValid = s.diagValid ∧
    (regWrite r v s).diagOpcode = s.diagOpcode := by
  cases r <;> exact ⟨rfl, rfl, rfl, rfl, rfl, rfl, rfl, rfl, rfl, rfl⟩

/-- What a branch test does to the state: the program counter, or nothing (R103). -/
theorem branchIf_eq (f : Flag) (b : Bool) (s : State) :
    branchIf f b s = { s with pc := if branchTaken f b s then branchTarget s.pc s.t0 else s.pc } := by
  simp only [branchIf]
  split <;> rfl

end Sys2Proof.Machine
end

