-- ==== Sys2Proof/Laws/Exec.lean ====
section
/-! SUPPORT. One lemma for each instruction: what `exec` answers, as one update of the state. Cite these; do not unfold a meaning. -/

namespace Sys2Proof.Machine

theorem pc_add_two (p : Word) : p + 1 + 1 = p + 2 := by bv_omega

theorem pc_add_three (p : Word) : p + 1 + 1 + 1 = p + 3 := by bv_omega

theorem exec_clc (s : State) :
    exec .clc s = .next { s with ir := opcode .clc, pc := s.pc + 1, flags := { s.flags with c := false } } := rfl

theorem exec_sec (s : State) :
    exec .sec s = .next { s with ir := opcode .sec, pc := s.pc + 1, flags := { s.flags with c := true } } := rfl

theorem exec_cli (s : State) :
    exec .cli s = .next { s with ir := opcode .cli, pc := s.pc + 1, flags := { s.flags with i := false } } := rfl

theorem exec_sei (s : State) :
    exec .sei s = .next { s with ir := opcode .sei, pc := s.pc + 1, flags := { s.flags with i := true } } := rfl

theorem exec_clv (s : State) :
    exec .clv s = .next { s with ir := opcode .clv, pc := s.pc + 1, flags := { s.flags with v := false } } := rfl

theorem exec_cld (s : State) :
    exec .cld s = .next { s with ir := opcode .cld, pc := s.pc + 1, flags := { s.flags with d := false } } := rfl

theorem exec_sed (s : State) :
    exec .sed s = .next { s with ir := opcode .sed, pc := s.pc + 1, flags := { s.flags with d := true } } := rfl

theorem exec_hlt (s : State) :
    exec .hlt s = .next { s with ir := opcode .hlt, pc := s.pc + 1, halted := true } := rfl

theorem exec_nop (s : State) :
    exec .nop s = .next { s with ir := opcode .nop, pc := s.pc + 1 } := rfl

theorem exec_txa (s : State) :
    exec .txa s = .next { s with ir := opcode .txa, pc := s.pc + 1, a := s.x, flags := setZN s.x s.flags } := rfl

theorem exec_tya (s : State) :
    exec .tya s = .next { s with ir := opcode .tya, pc := s.pc + 1, a := s.y, flags := setZN s.y s.flags } := rfl

theorem exec_tay (s : State) :
    exec .tay s = .next { s with ir := opcode .tay, pc := s.pc + 1, y := s.a, flags := setZN s.a s.flags } := rfl

theorem exec_tax (s : State) :
    exec .tax s = .next { s with ir := opcode .tax, pc := s.pc + 1, x := s.a, flags := setZN s.a s.flags } := rfl

theorem exec_tsx (s : State) :
    exec .tsx s = .next { s with
      ir := opcode .tsx, pc := s.pc + 1, x := s.sp, flags := setZN s.sp s.flags } := rfl

theorem exec_txs (s : State) :
    exec .txs s = .next { s with ir := opcode .txs, pc := s.pc + 1, sp := s.x } := rfl

theorem exec_dey (s : State) :
    exec .dey s = .next { s with
      ir := opcode .dey, pc := s.pc + 1, y := s.y - 1, flags := setZN s.x s.flags } := rfl

theorem exec_iny (s : State) :
    exec .iny s = .next { s with
      ir := opcode .iny, pc := s.pc + 1, y := s.y + 1, flags := setZN (s.y + 1) s.flags } := rfl

theorem exec_dex (s : State) :
    exec .dex s = .next { s with
      ir := opcode .dex, pc := s.pc + 1, x := s.x - 1, flags := setZN (s.x - 1) s.flags } := rfl

theorem exec_inx (s : State) :
    exec .inx s = .next { s with
      ir := opcode .inx, pc := s.pc + 1, x := s.x + 1, flags := setZN (s.x + 1) s.flags } := rfl

theorem exec_ldaImm (imm : Byte) (s : State) :
    exec (.ldaImm imm) s = .next { s with
      ir := opcode (.ldaImm imm), pc := s.pc + 2, a := imm, flags := setZN imm s.flags } := by
  simp only [exec, execLdaImm, takeImm_a_eq, takeOpcode_eq, pc_add_two]

theorem exec_ldxImm (imm : Byte) (s : State) :
    exec (.ldxImm imm) s = .next { s with ir := opcode (.ldxImm imm), pc := s.pc + 2, x := imm } := by
  simp only [exec, execLdxImm, takeImm_x_eq, takeOpcode_eq, pc_add_two]

theorem exec_ldyImm (imm : Byte) (s : State) :
    exec (.ldyImm imm) s = .next { s with ir := opcode (.ldyImm imm), pc := s.pc + 2, y := imm } := by
  simp only [exec, execLdyImm, takeImm_y_eq, takeOpcode_eq, pc_add_two]

theorem exec_staZp (zp : Byte) (s : State) :
    exec (.staZp zp) s = .next { s with
      ir := opcode (.staZp zp), pc := s.pc + 2, t0 := zp, mem := memWrite s.mem (zpAddress zp) s.a } := by
  simp only [exec, execStaZp, storeToZp_eq, takeLo_eq, takeOpcode_eq, regRead, pc_add_two]

theorem exec_stxZp (zp : Byte) (s : State) :
    exec (.stxZp zp) s = .next { s with
      ir := opcode (.stxZp zp), pc := s.pc + 2, t0 := zp, mem := memWrite s.mem (zpAddress zp) s.x } := by
  simp only [exec, execStxZp, storeToZp_eq, takeLo_eq, takeOpcode_eq, regRead, pc_add_two]

theorem exec_styZp (zp : Byte) (s : State) :
    exec (.styZp zp) s = .next { s with
      ir := opcode (.styZp zp), pc := s.pc + 2, t0 := zp, mem := memWrite s.mem (zpAddress zp) s.y } := by
  simp only [exec, execStyZp, storeToZp_eq, takeLo_eq, takeOpcode_eq, regRead, pc_add_two]

theorem exec_ldaZp (zp : Byte) (s : State) :
    exec (.ldaZp zp) s = .next { s with
      ir := opcode (.ldaZp zp), pc := s.pc + 2, t0 := zp, a := memRead s.mem (zpAddress zp),
      flags := setZN (memRead s.mem (zpAddress zp)) s.flags } := by
  simp only [exec, execLdaZp, loadFromZp_eq, takeLo_eq, takeOpcode_eq, pc_add_two]

theorem exec_staAbs (w : Word) (s : State) :
    exec (.staAbs w) s = .next { s with
      ir := opcode (.staAbs w), pc := s.pc + 3, t0 := lo8 w, t1 := hi8 w,
      mem := memWrite s.mem (absAddress (lo8 w) (hi8 w)) s.a } := by
  simp only [exec, execStaAbs, storeToAbs_eq, takeHi_eq, takeLo_eq, takeOpcode_eq, regRead, pc_add_three]

theorem exec_stxAbs (w : Word) (s : State) :
    exec (.stxAbs w) s = .next { s with
      ir := opcode (.stxAbs w), pc := s.pc + 3, t0 := lo8 w, t1 := hi8 w,
      mem := memWrite s.mem (absAddress (lo8 w) (hi8 w)) s.x } := by
  simp only [exec, execStxAbs, storeToAbs_eq, takeHi_eq, takeLo_eq, takeOpcode_eq, regRead, pc_add_three]

theorem exec_styAbs (w : Word) (s : State) :
    exec (.styAbs w) s = .next { s with
      ir := opcode (.styAbs w), pc := s.pc + 3, t0 := lo8 w, t1 := hi8 w,
      mem := memWrite s.mem (absAddress (lo8 w) (hi8 w)) s.y } := by
  simp only [exec, execStyAbs, storeToAbs_eq, takeHi_eq, takeLo_eq, takeOpcode_eq, regRead, pc_add_three]

theorem exec_ldaAbs (w : Word) (s : State) :
    exec (.ldaAbs w) s = .next { s with
      ir := opcode (.ldaAbs w), pc := s.pc + 3, t0 := lo8 w, t1 := hi8 w,
      a := memRead s.mem (absAddress (lo8 w) (hi8 w)),
      flags := setZN (memRead s.mem (absAddress (lo8 w) (hi8 w))) s.flags } := by
  simp only [exec, execLdaAbs, loadFromAbs_eq, takeHi_eq, takeLo_eq, takeOpcode_eq, pc_add_three]

theorem exec_pha (s : State) :
    exec .pha s = .next { s with
      ir := opcode .pha, pc := s.pc + 1, mem := memWrite s.mem (stackAddress s.sp) s.a, sp := s.sp - 1 } := rfl

theorem exec_php (s : State) :
    exec .php s = .next { s with
      ir := opcode .php, pc := s.pc + 1, mem := memWrite s.mem (stackAddress s.sp) (toByte s.flags), sp := s.sp - 1 } := rfl

theorem exec_pla (s : State) :
    exec .pla s = .next { s with
      ir := opcode .pla, pc := s.pc + 1, sp := s.sp + 1, a := memRead s.mem (stackAddress (s.sp + 1)),
      flags := setZN (memRead s.mem (stackAddress (s.sp + 1))) s.flags } := rfl

theorem exec_plp (s : State) :
    exec .plp s = .next { s with
      ir := opcode .plp, pc := s.pc + 1, sp := s.sp + 1, flags := fromByte (memRead s.mem (stackAddress (s.sp + 1))) } := rfl

theorem exec_bpl (rel : Byte) (s : State) :
    exec (.bpl rel) s = .next { s with
      ir := opcode (.bpl rel), t0 := rel, pc := if s.flags.n = false then branchTarget (s.pc + 2) rel else s.pc + 2 } := by
  simp only [exec, execBpl, branchIf_eq, branchTaken, flagGet, takeLo_eq, takeOpcode_eq, pc_add_two, beq_iff_eq]

theorem exec_bmi (rel : Byte) (s : State) :
    exec (.bmi rel) s = .next { s with
      ir := opcode (.bmi rel), t0 := rel, pc := if s.flags.n = true then branchTarget (s.pc + 2) rel else s.pc + 2 } := by
  simp only [exec, execBmi, branchIf_eq, branchTaken, flagGet, takeLo_eq, takeOpcode_eq, pc_add_two, beq_iff_eq]

theorem exec_bvc (rel : Byte) (s : State) :
    exec (.bvc rel) s = .next { s with
      ir := opcode (.bvc rel), t0 := rel, pc := if s.flags.v = false then branchTarget (s.pc + 2) rel else s.pc + 2 } := by
  simp only [exec, execBvc, branchIf_eq, branchTaken, flagGet, takeLo_eq, takeOpcode_eq, pc_add_two, beq_iff_eq]

theorem exec_bvs (rel : Byte) (s : State) :
    exec (.bvs rel) s = .next { s with
      ir := opcode (.bvs rel), t0 := rel, pc := if s.flags.v = true then branchTarget (s.pc + 2) rel else s.pc + 2 } := by
  simp only [exec, execBvs, branchIf_eq, branchTaken, flagGet, takeLo_eq, takeOpcode_eq, pc_add_two, beq_iff_eq]

theorem exec_bcc (rel : Byte) (s : State) :
    exec (.bcc rel) s = .next { s with
      ir := opcode (.bcc rel), t0 := rel, pc := if s.flags.c = false then branchTarget (s.pc + 2) rel else s.pc + 2 } := by
  simp only [exec, execBcc, branchIf_eq, branchTaken, flagGet, takeLo_eq, takeOpcode_eq, pc_add_two, beq_iff_eq]

theorem exec_bcs (rel : Byte) (s : State) :
    exec (.bcs rel) s = .next { s with
      ir := opcode (.bcs rel), t0 := rel, pc := if s.flags.c = true then branchTarget (s.pc + 2) rel else s.pc + 2 } := by
  simp only [exec, execBcs, branchIf_eq, branchTaken, flagGet, takeLo_eq, takeOpcode_eq, pc_add_two, beq_iff_eq]

theorem exec_bne (rel : Byte) (s : State) :
    exec (.bne rel) s = .next { s with
      ir := opcode (.bne rel), t0 := rel, pc := if s.flags.z = false then branchTarget (s.pc + 2) rel else s.pc + 2 } := by
  simp only [exec, execBne, branchIf_eq, branchTaken, flagGet, takeLo_eq, takeOpcode_eq, pc_add_two, beq_iff_eq]

theorem exec_beq (rel : Byte) (s : State) :
    exec (.beq rel) s = .next { s with
      ir := opcode (.beq rel), t0 := rel, pc := if s.flags.z = true then branchTarget (s.pc + 2) rel else s.pc + 2 } := by
  simp only [exec, execBeq, branchIf_eq, branchTaken, flagGet, takeLo_eq, takeOpcode_eq, pc_add_two, beq_iff_eq]

theorem exec_jmpAbs (w : Word) (s : State) :
    exec (.jmpAbs w) s = .next { s with
      ir := opcode (.jmpAbs w), t0 := lo8 w, t1 := hi8 w, pc := absAddress (lo8 w) (hi8 w) } := by
  simp only [exec, execJmpAbs, takeHiJump_eq, takeLo_eq, takeOpcode_eq]

theorem exec_jsr (w : Word) (s : State) :
    exec (.jsr w) s = .next { s with
      ir := opcode (.jsr w), t0 := lo8 w, t1 := hi8 w, pc := absAddress (lo8 w) (hi8 w), sp := s.sp - 1 - 1,
      mem := memWrite (memWrite s.mem (stackAddress s.sp) (hi8 (s.pc + 2))) (stackAddress (s.sp - 1)) (lo8 (s.pc + 2)) } := by
  simp only [exec, execJsr, jsrCore, takeHiNoInc_eq, takeLo_eq, takeOpcode_eq, jumpToT_eq, pushByte_eq, pc_add_two]

theorem exec_rts (s : State) :
    exec .rts s = .next { s with
      ir := opcode .rts, sp := s.sp + 1 + 1, t0 := memRead s.mem (stackAddress (s.sp + 1)),
      t1 := memRead s.mem (stackAddress (s.sp + 1 + 1)),
      pc := absAddress (memRead s.mem (stackAddress (s.sp + 1))) (memRead s.mem (stackAddress (s.sp + 1 + 1))) + 1 } := by
  simp only [exec, execRts, returnToT_eq, pullToT1_eq, pullToT0_eq, takeOpcode_eq]

end Sys2Proof.Machine
end

