-- ==== Sys2Proof/Laws/PerInstr.lean ====
section
/-! SUPPORT. Per-instruction facts about the encoding: its length is that of the instruction's format and its first byte is
the opcode whose row has that format (spec/30_encoding.md R60, R71). -/

/-- The encoding has the length of the format, from 1 to 3 bytes, starts with the opcode, and the opcode map gives that opcode
the same format. -/
def Sys2Proof.Laws.EncodingLength.Statement (i : Sys2Proof.Instr) : Prop :=
  (Sys2Proof.encode i).length = Sys2Proof.instrLength i ∧ (Sys2Proof.encode i).head? = some (Sys2Proof.opcode i) ∧
    (Sys2Proof.lookupRow Sys2Proof.Config.hltOpcode (Sys2Proof.opcode i)).map (·.format) = some (Sys2Proof.instrFormat i)

theorem Sys2Proof.Laws.EncodingLength.hlt : Sys2Proof.Laws.EncodingLength.Statement .hlt :=
  ⟨rfl, rfl, rfl⟩
theorem Sys2Proof.Laws.EncodingLength.clc : Sys2Proof.Laws.EncodingLength.Statement .clc :=
  ⟨rfl, rfl, rfl⟩
theorem Sys2Proof.Laws.EncodingLength.sec : Sys2Proof.Laws.EncodingLength.Statement .sec :=
  ⟨rfl, rfl, rfl⟩
theorem Sys2Proof.Laws.EncodingLength.cli : Sys2Proof.Laws.EncodingLength.Statement .cli :=
  ⟨rfl, rfl, rfl⟩
theorem Sys2Proof.Laws.EncodingLength.sei : Sys2Proof.Laws.EncodingLength.Statement .sei :=
  ⟨rfl, rfl, rfl⟩
theorem Sys2Proof.Laws.EncodingLength.clv : Sys2Proof.Laws.EncodingLength.Statement .clv :=
  ⟨rfl, rfl, rfl⟩
theorem Sys2Proof.Laws.EncodingLength.cld : Sys2Proof.Laws.EncodingLength.Statement .cld :=
  ⟨rfl, rfl, rfl⟩
theorem Sys2Proof.Laws.EncodingLength.sed : Sys2Proof.Laws.EncodingLength.Statement .sed :=
  ⟨rfl, rfl, rfl⟩
theorem Sys2Proof.Laws.EncodingLength.nop : Sys2Proof.Laws.EncodingLength.Statement .nop :=
  ⟨rfl, rfl, rfl⟩
theorem Sys2Proof.Laws.EncodingLength.txa : Sys2Proof.Laws.EncodingLength.Statement .txa :=
  ⟨rfl, rfl, rfl⟩
theorem Sys2Proof.Laws.EncodingLength.tya : Sys2Proof.Laws.EncodingLength.Statement .tya :=
  ⟨rfl, rfl, rfl⟩
theorem Sys2Proof.Laws.EncodingLength.tay : Sys2Proof.Laws.EncodingLength.Statement .tay :=
  ⟨rfl, rfl, rfl⟩
theorem Sys2Proof.Laws.EncodingLength.dey : Sys2Proof.Laws.EncodingLength.Statement .dey :=
  ⟨rfl, rfl, rfl⟩
theorem Sys2Proof.Laws.EncodingLength.iny : Sys2Proof.Laws.EncodingLength.Statement .iny :=
  ⟨rfl, rfl, rfl⟩
theorem Sys2Proof.Laws.EncodingLength.tax : Sys2Proof.Laws.EncodingLength.Statement .tax :=
  ⟨rfl, rfl, rfl⟩
theorem Sys2Proof.Laws.EncodingLength.tsx : Sys2Proof.Laws.EncodingLength.Statement .tsx :=
  ⟨rfl, rfl, rfl⟩
theorem Sys2Proof.Laws.EncodingLength.dex : Sys2Proof.Laws.EncodingLength.Statement .dex :=
  ⟨rfl, rfl, rfl⟩
theorem Sys2Proof.Laws.EncodingLength.inx : Sys2Proof.Laws.EncodingLength.Statement .inx :=
  ⟨rfl, rfl, rfl⟩
theorem Sys2Proof.Laws.EncodingLength.txs : Sys2Proof.Laws.EncodingLength.Statement .txs :=
  ⟨rfl, rfl, rfl⟩
theorem Sys2Proof.Laws.EncodingLength.ldaImm (imm : Byte) : Sys2Proof.Laws.EncodingLength.Statement (.ldaImm imm) :=
  ⟨rfl, rfl, rfl⟩
theorem Sys2Proof.Laws.EncodingLength.ldxImm (imm : Byte) : Sys2Proof.Laws.EncodingLength.Statement (.ldxImm imm) :=
  ⟨rfl, rfl, rfl⟩
theorem Sys2Proof.Laws.EncodingLength.ldyImm (imm : Byte) : Sys2Proof.Laws.EncodingLength.Statement (.ldyImm imm) :=
  ⟨rfl, rfl, rfl⟩
theorem Sys2Proof.Laws.EncodingLength.staZp (zp : Byte) : Sys2Proof.Laws.EncodingLength.Statement (.staZp zp) :=
  ⟨rfl, rfl, rfl⟩
theorem Sys2Proof.Laws.EncodingLength.stxZp (zp : Byte) : Sys2Proof.Laws.EncodingLength.Statement (.stxZp zp) :=
  ⟨rfl, rfl, rfl⟩
theorem Sys2Proof.Laws.EncodingLength.styZp (zp : Byte) : Sys2Proof.Laws.EncodingLength.Statement (.styZp zp) :=
  ⟨rfl, rfl, rfl⟩
theorem Sys2Proof.Laws.EncodingLength.ldaZp (zp : Byte) : Sys2Proof.Laws.EncodingLength.Statement (.ldaZp zp) :=
  ⟨rfl, rfl, rfl⟩
theorem Sys2Proof.Laws.EncodingLength.staAbs (addr : Word) : Sys2Proof.Laws.EncodingLength.Statement (.staAbs addr) :=
  ⟨rfl, rfl, rfl⟩
theorem Sys2Proof.Laws.EncodingLength.stxAbs (addr : Word) : Sys2Proof.Laws.EncodingLength.Statement (.stxAbs addr) :=
  ⟨rfl, rfl, rfl⟩
theorem Sys2Proof.Laws.EncodingLength.styAbs (addr : Word) : Sys2Proof.Laws.EncodingLength.Statement (.styAbs addr) :=
  ⟨rfl, rfl, rfl⟩
theorem Sys2Proof.Laws.EncodingLength.ldaAbs (addr : Word) : Sys2Proof.Laws.EncodingLength.Statement (.ldaAbs addr) :=
  ⟨rfl, rfl, rfl⟩
theorem Sys2Proof.Laws.EncodingLength.pha : Sys2Proof.Laws.EncodingLength.Statement .pha :=
  ⟨rfl, rfl, rfl⟩
theorem Sys2Proof.Laws.EncodingLength.php : Sys2Proof.Laws.EncodingLength.Statement .php :=
  ⟨rfl, rfl, rfl⟩
theorem Sys2Proof.Laws.EncodingLength.pla : Sys2Proof.Laws.EncodingLength.Statement .pla :=
  ⟨rfl, rfl, rfl⟩
theorem Sys2Proof.Laws.EncodingLength.plp : Sys2Proof.Laws.EncodingLength.Statement .plp :=
  ⟨rfl, rfl, rfl⟩
theorem Sys2Proof.Laws.EncodingLength.bpl (rel : Byte) : Sys2Proof.Laws.EncodingLength.Statement (.bpl rel) :=
  ⟨rfl, rfl, rfl⟩
theorem Sys2Proof.Laws.EncodingLength.bmi (rel : Byte) : Sys2Proof.Laws.EncodingLength.Statement (.bmi rel) :=
  ⟨rfl, rfl, rfl⟩
theorem Sys2Proof.Laws.EncodingLength.bvc (rel : Byte) : Sys2Proof.Laws.EncodingLength.Statement (.bvc rel) :=
  ⟨rfl, rfl, rfl⟩
theorem Sys2Proof.Laws.EncodingLength.bvs (rel : Byte) : Sys2Proof.Laws.EncodingLength.Statement (.bvs rel) :=
  ⟨rfl, rfl, rfl⟩
theorem Sys2Proof.Laws.EncodingLength.bcc (rel : Byte) : Sys2Proof.Laws.EncodingLength.Statement (.bcc rel) :=
  ⟨rfl, rfl, rfl⟩
theorem Sys2Proof.Laws.EncodingLength.bcs (rel : Byte) : Sys2Proof.Laws.EncodingLength.Statement (.bcs rel) :=
  ⟨rfl, rfl, rfl⟩
theorem Sys2Proof.Laws.EncodingLength.bne (rel : Byte) : Sys2Proof.Laws.EncodingLength.Statement (.bne rel) :=
  ⟨rfl, rfl, rfl⟩
theorem Sys2Proof.Laws.EncodingLength.beq (rel : Byte) : Sys2Proof.Laws.EncodingLength.Statement (.beq rel) :=
  ⟨rfl, rfl, rfl⟩
theorem Sys2Proof.Laws.EncodingLength.jmpAbs (addr : Word) : Sys2Proof.Laws.EncodingLength.Statement (.jmpAbs addr) :=
  ⟨rfl, rfl, rfl⟩
theorem Sys2Proof.Laws.EncodingLength.jsr (addr : Word) : Sys2Proof.Laws.EncodingLength.Statement (.jsr addr) :=
  ⟨rfl, rfl, rfl⟩
theorem Sys2Proof.Laws.EncodingLength.rts : Sys2Proof.Laws.EncodingLength.Statement .rts :=
  ⟨rfl, rfl, rfl⟩
end

