-- ==== Sys2Proof/Laws/Schedule.lean ====
section
/-! SUPPORT. The three cases of a step, the decode list of an instruction's own opcode, and runs of several cycles. -/

namespace Sys2Proof.Machine

theorem step_eq (s : State) : step s = .next (clockCycle s) := rfl

theorem clockCycle_halted {s : State} (h : s.halted = true) : clockCycle s = s := by
  simp [clockCycle, h]

theorem clockCycle_fetch {s : State} (h : s.halted = false) (hq : s.queue = []) : clockCycle s = fetchDecode s := by
  simp [clockCycle, h, hq]

theorem clockCycle_micro {s : State} {m : MicroOp} {q : List MicroOp} (h : s.halted = false) (hq : s.queue = m :: q) :
    clockCycle s = execMicro m (s.withQueue q) := by
  simp [clockCycle, h, hq]

/-- Every step is one of three: nothing (halted), a fetch (empty queue), or the micro-op at the head (R80). -/
theorem clockCycle_cases (s : State) :
    (s.halted = true ∧ clockCycle s = s) ∨
    (s.halted = false ∧ s.queue = [] ∧ clockCycle s = fetchDecode s) ∨
    (∃ m q, s.halted = false ∧ s.queue = m :: q ∧ clockCycle s = execMicro m (s.withQueue q)) := by
  by_cases h : s.halted = true
  · exact .inl ⟨h, clockCycle_halted h⟩
  · simp only [Bool.not_eq_true] at h
    cases hq : s.queue with
    | nil => exact .inr (.inl ⟨h, rfl, clockCycle_fetch h hq⟩)
    | cons m q => exact .inr (.inr ⟨m, q, h, rfl, clockCycle_micro h hq⟩)

/-- The decode list of an instruction's opcode byte is its own (R82). -/
theorem decodeQueue_opcode (i : Instr) : decodeQueue (opcode i) = microOps i := by
  cases i <;> rfl

theorem runCycles_zero (s : State) : runCycles 0 s = .next s := rfl

theorem runCycles_succ (k : Nat) (s : State) : runCycles (k + 1) s = runCycles k (clockCycle s) := rfl

/-- A run of several cycles is the iterated cycle function; it always answers a next state (R211). -/
theorem runCycles_eq (k : Nat) (s : State) : runCycles k s = .next (clockCycle^[k] s) := by
  induction k generalizing s with
  | zero => rfl
  | succ k ih => simpa [runCycles_succ] using ih (clockCycle s)

end Sys2Proof.Machine
end

