-- ==== Sys2Proof/Tests/Slice0.lean ====
section
/-! SUPPORT. Tests. Expected values come from spec/: the opcode map (30_encoding.md R67), the examples E1 to E9 and the vectors V1 to V80 of
95_test_vectors.md, and hand calculation from the rules named. The last part has a witness for each obligation with
hypotheses: a concrete state and operands that meet all of them. -/

namespace Sys2Proof.Machine

/-! ## Helpers -/

/-- The reset state with bytes placed at `pc`, where the machine stands (the setting of 95_test_vectors.md). -/
def placed (pc : Word) (bytes : List Byte) : State :=
  { State.reset with pc := pc, mem := memLoadList State.reset.mem pc bytes }

/-- One RAM byte of a start state. -/
def setRam (addr : Word) (v : Byte) (s : State) : State := s.withMem (memWrite s.mem addr v)

/-- A view of the state after `n` clock cycles. -/
def after {α : Type} (n : Nat) (s : State) (f : State → α) : Option α :=
  match runCycles n s with
  | .next t => some (f t)
  | .fault _ => none
  | .refused _ => none

/-! ## Well-formedness: an ill-formed term for each check -/

theorem test_wf_refuses_setFlag_v_true : MicroOp.wellFormed (.setFlag .v true) = false := by decide
theorem test_wf_refuses_transfer_a_sp : MicroOp.wellFormed (.transfer .a .sp true) = false := by decide
theorem test_wf_refuses_txs_with_flags : MicroOp.wellFormed (.transfer .sp .x true) = false := by decide
theorem test_wf_refuses_incDec_x_y : MicroOp.wellFormed (.incDec .x .plus .y) = false := by decide
theorem test_wf_refuses_loadImm_sp : MicroOp.wellFormed (.loadImm .sp false) = false := by decide
theorem test_wf_refuses_loadImm_x_with_flags : MicroOp.wellFormed (.loadImm .x true) = false := by decide
theorem test_wf_refuses_storeZp_sp : MicroOp.wellFormed (.storeZp .sp) = false := by decide
theorem test_wf_refuses_storeAbs_sp : MicroOp.wellFormed (.storeAbs .sp) = false := by decide
theorem test_wf_refuses_branch_on_i : MicroOp.wellFormed (.branchTest .i true) = false := by decide
theorem test_wf_refuses_hlt_byte_of_lda : hltOpcodeLegal 0xA9#8 = false := by decide
theorem test_wf_accepts_hlt_default : hltOpcodeLegal Config.hltOpcode = true := by decide
theorem test_wf_refuses_unsorted_memory : Memory.wf ⟨[(3, 1#8), (2, 1#8)], []⟩ = false := by decide
theorem test_wf_refuses_repeated_index : Memory.wf ⟨[(3, 1#8), (3, 2#8)], []⟩ = false := by decide
theorem test_wf_refuses_listed_zero : Memory.wf ⟨[], [(3, 0#8)]⟩ = false := by decide
theorem test_wf_refuses_ram_index_2048 : Memory.wf ⟨[(2048, 1#8)], []⟩ = false := by decide
theorem test_wf_refuses_rom_index_32768 : Memory.wf ⟨[], [(32768, 1#8)]⟩ = false := by decide

/-! ## Decoding: a word written out from R60 to R67 for every constructor -/

theorem test_decode_halt_and_flags :
    decode [0x02#8] = .instr .hlt [] ∧ decode [0x18#8] = .instr .clc [] ∧ decode [0x38#8] = .instr .sec [] ∧
    decode [0x58#8] = .instr .cli [] ∧ decode [0x78#8] = .instr .sei [] ∧ decode [0xB8#8] = .instr .clv [] ∧
    decode [0xD8#8] = .instr .cld [] ∧ decode [0xF8#8] = .instr .sed [] ∧ decode [0xEA#8] = .instr .nop [] := by decide

theorem test_decode_transfers_and_counts :
    decode [0x8A#8] = .instr .txa [] ∧ decode [0x98#8] = .instr .tya [] ∧ decode [0xA8#8] = .instr .tay [] ∧
    decode [0x88#8] = .instr .dey [] ∧ decode [0xC8#8] = .instr .iny [] ∧ decode [0xAA#8] = .instr .tax [] ∧
    decode [0xBA#8] = .instr .tsx [] ∧ decode [0xCA#8] = .instr .dex [] ∧ decode [0xE8#8] = .instr .inx [] ∧
    decode [0x9A#8] = .instr .txs [] := by decide

theorem test_decode_immediate_and_zero_page :
    decode [0xA9#8, 0x80#8] = .instr (.ldaImm 0x80#8) [] ∧ decode [0xA2#8, 0x01#8] = .instr (.ldxImm 0x01#8) [] ∧
    decode [0xA0#8, 0xFF#8] = .instr (.ldyImm 0xFF#8) [] ∧ decode [0x85#8, 0x10#8] = .instr (.staZp 0x10#8) [] ∧
    decode [0x86#8, 0xFF#8] = .instr (.stxZp 0xFF#8) [] ∧ decode [0x84#8, 0x00#8] = .instr (.styZp 0x00#8) [] ∧
    decode [0xA5#8, 0x20#8] = .instr (.ldaZp 0x20#8) [] := by decide

/-- The low address byte stands first in the stream (R64). -/
theorem test_decode_absolute :
    decode [0x8D#8, 0x03#8, 0x08#8] = .instr (.staAbs 0x0803#16) [] ∧
    decode [0x8E#8, 0xFF#8, 0x7F#8] = .instr (.stxAbs 0x7FFF#16) [] ∧
    decode [0x8C#8, 0x00#8, 0x01#8] = .instr (.styAbs 0x0100#16) [] ∧
    decode [0xAD#8, 0xFC#8, 0xFF#8] = .instr (.ldaAbs 0xFFFC#16) [] ∧
    decode [0x4C#8, 0x00#8, 0x90#8] = .instr (.jmpAbs 0x9000#16) [] ∧
    decode [0x20#8, 0x34#8, 0x12#8] = .instr (.jsr 0x1234#16) [] := by decide

theorem test_decode_stack_and_branches :
    decode [0x48#8] = .instr .pha [] ∧ decode [0x08#8] = .instr .php [] ∧ decode [0x68#8] = .instr .pla [] ∧
    decode [0x28#8] = .instr .plp [] ∧ decode [0x60#8] = .instr .rts [] ∧ decode [0x10#8, 0x7F#8] = .instr (.bpl 0x7F#8) [] ∧
    decode [0x30#8, 0x80#8] = .instr (.bmi 0x80#8) [] ∧ decode [0x50#8, 0x00#8] = .instr (.bvc 0x00#8) [] ∧
    decode [0x70#8, 0x10#8] = .instr (.bvs 0x10#8) [] ∧ decode [0x90#8, 0x05#8] = .instr (.bcc 0x05#8) [] ∧
    decode [0xB0#8, 0xFB#8] = .instr (.bcs 0xFB#8) [] ∧ decode [0xD0#8, 0xFD#8] = .instr (.bne 0xFD#8) [] ∧
    decode [0xF0#8, 0xFE#8] = .instr (.beq 0xFE#8) [] := by decide

/-- Bytes of the full 6502 set that this machine does not have (R68, R70), and the bytes that R68 names. -/
theorem test_decode_unknown :
    decode [0x00#8, 0x02#8] = .unknownOpcode 0x00#8 ∧ decode [0xFF#8] = .unknownOpcode 0xFF#8 ∧
    decode [0x69#8, 0x05#8] = .unknownOpcode 0x69#8 ∧ decode [0xA6#8, 0x10#8] = .unknownOpcode 0xA6#8 ∧
    decode [0x6C#8, 0x00#8, 0x90#8] = .unknownOpcode 0x6C#8 ∧ decode [0x40#8] = .unknownOpcode 0x40#8 := by decide

/-- Words numbered as spec/opcode_table.json numbers them: first byte in bits 7:0. -/
theorem test_decodeTableWord :
    decodeTableWord 8 0x02 = some .hlt ∧ decodeTableWord 16 0x42A9 = some (.ldaImm 0x42#8) ∧
    decodeTableWord 24 0x90008D = some (.staAbs 0x9000#16) ∧ decodeTableWord 8 0x8D = some (.staAbs 0x0000#16) ∧
    decodeTableWord 8 0xFF = none := by decide

theorem test_encode :
    encode (.jsr 0x9000#16) = [0x20#8, 0x00#8, 0x90#8] ∧ encode (.beq 0xFE#8) = [0xF0#8, 0xFE#8] ∧ encode .rts = [0x60#8] := by
  decide

/-- R72's forms. -/
theorem test_assemblyText :
    assemblyText 0x8000#16 (.ldaImm 0x42#8) = "LDA #$42" ∧ assemblyText 0x8000#16 (.stxAbs 0x0803#16) = "STX $0803" ∧
    assemblyText 0x8000#16 (.staZp 0x10#8) = "STA $10" ∧ assemblyText 0x8003#16 (.bne 0xFD#8) = "BNE $8002" ∧
    assemblyText 0x8000#16 .hlt = "HLT" := by decide

/-! ## Reset, fetch, flags -/

/-- R25: `SP = 0xFD`, `P = 0x34`. -/
theorem test_reset_registers : State.reset.sp = 0xFD#8 ∧ toByte State.reset.flags = 0x34#8 ∧ State.reset.queue = [] := by decide

theorem test_reset_mem_wf : State.reset.mem.wf = true := by decide

/-- R15: bits 4 and 5 of a pulled byte are ignored. -/
theorem test_fromByte : fromByte 0xC3#8 = ⟨true, true, false, false, true, true⟩ ∧ toByte (fromByte 0xC3#8) = 0xF3#8 := by decide

/-- R44, E2: a write to 0x0003 is read at 0x0803, 0x1003, 0x7803 and not at 0x8003. -/
theorem test_mirror_E2 :
    let m := memWrite State.reset.mem 0x0003#16 0x07#8
    memRead m 0x0803#16 = 0x07#8 ∧ memRead m 0x1003#16 = 0x07#8 ∧ memRead m 0x7803#16 = 0x07#8 ∧ memRead m 0x8003#16 = 0x00#8 := by
  decide

/-- A word put by `withFetchWord` is the one the next step fetches, in RAM at the reset `PC` and across the end of the address space. -/
theorem test_withFetchWord :
    decodeAtPc (State.reset.withFetchWord 24 0x900020) = .instr (.jsr 0x9000#16) [] ∧
    after 6 (State.reset.withFetchWord 24 0x900020) (fun s => (s.pc, s.sp)) = some (0x9000#16, 0xFB#8) ∧
    decodeAtPc ((State.reset.withPc 0xFFFF#16).withFetchWord 16 0x42A9) = .instr (.ldaImm 0x42#8) [0x00#8] := by decide

/-- E5: the queue after the fetch of LDA absolute, and after its last step. -/
theorem test_queue_E5 :
    after 1 (placed 0x8000#16 [0xAD#8, 0x00#8, 0x80#8]) (fun s => s.queue) = some [.fetchLo, .fetchHi, .loadAbsA] ∧
    after 4 (placed 0x8000#16 [0xAD#8, 0x00#8, 0x80#8]) (fun s => s.queue) = some [] := by decide

/-- E6: steps 10 and 11, the padding of RTS. -/
theorem test_queue_E6 :
    after 10 (setRam 0x1000#16 0x00#8 ((placed 0x8000#16 [0x20#8, 0x00#8, 0x03#8]).withMem
      (memLoad (placed 0x8000#16 [0x20#8, 0x00#8, 0x03#8]).mem 0x0300#16 0x60#8)))
      (fun s => (s.pc, s.queue)) = some (0x8003#16, [.nop, .nop]) := by decide

/-- D4, E8: a step on a halted machine changes nothing. -/
theorem test_halted_E8 :
    after 2 (placed 0x8000#16 [0xFF#8]) id = after 3 (placed 0x8000#16 [0xFF#8]) id := by decide

/-- V4, its first two steps (R139). -/
theorem test_nop_V4 : after 2 (placed 0x8000#16 [0xEA#8, 0x02#8]) (fun s => (s.pc, s.queue)) = some (0x8001#16, []) := by decide

/-! ## The vectors -/

/-- V1 (R130, R111). -/
theorem test_hlt_V1 :
    after 2 (placed 0x8000#16 [0x02#8])
      (fun s => (s.pc, s.halted, s.diagValid)) = some (0x8001#16, true, false) := by
  decide

/-- V4b (R131, R70). -/
theorem test_unknown_V4b :
    after 2 (placed 0x8000#16 [0x69#8, 0x05#8])
      (fun s => (s.pc, s.halted, s.diagValid, s.diagOpcode)) = some (0x8001#16, true, true, 0x69#8) := by
  decide

/-- V2 (R131, R112). -/
theorem test_unknown_V2 :
    after 2 (placed 0x8000#16 [0xFF#8])
      (fun s => (s.pc, s.halted, s.diagValid, s.diagOpcode)) = some (0x8001#16, true, true, 0xFF#8) := by
  decide

/-- V11b (R133, R88). -/
theorem test_sec_V11b :
    after 2 (writeFlag .n true (writeFlag .z true (writeFlag .c true (placed 0x8000#16 [0x38#8]))))
      (fun s => (s.pc, s.flags.c, s.flags.z, s.flags.n)) = some (0x8001#16, true, true, true) := by
  decide

/-- V5 (R133). -/
theorem test_sec_V5 :
    after 2 (placed 0x8000#16 [0x38#8])
      (fun s => (s.pc, s.flags.c)) = some (0x8001#16, true) := by
  decide

/-- V6 (R132). -/
theorem test_clc_V6 :
    after 2 (writeFlag .c true (placed 0x8000#16 [0x18#8]))
      (fun s => (s.pc, s.flags.c)) = some (0x8001#16, false) := by
  decide

/-- V7 (R134). -/
theorem test_cli_V7 :
    after 2 (placed 0x8000#16 [0x58#8])
      (fun s => (s.pc, s.flags.i)) = some (0x8001#16, false) := by
  decide

/-- V8 (R135). -/
theorem test_sei_V8 :
    after 2 (writeFlag .i false (placed 0x8000#16 [0x78#8]))
      (fun s => (s.pc, s.flags.i)) = some (0x8001#16, true) := by
  decide

/-- V9 (R136). -/
theorem test_clv_V9 :
    after 2 (writeFlag .v true (placed 0x8000#16 [0xB8#8]))
      (fun s => (s.pc, s.flags.v)) = some (0x8001#16, false) := by
  decide

/-- V10 (R138). -/
theorem test_sed_V10 :
    after 2 (placed 0x8000#16 [0xF8#8])
      (fun s => (s.pc, s.flags.d)) = some (0x8001#16, true) := by
  decide

/-- V11 (R137). -/
theorem test_cld_V11 :
    after 2 (writeFlag .d true (placed 0x8000#16 [0xD8#8]))
      (fun s => (s.pc, s.flags.d)) = some (0x8001#16, false) := by
  decide

/-- V12 (R145). -/
theorem test_tax_V12 :
    after 2 ((placed 0x8000#16 [0xAA#8]).withA 0x80#8)
      (fun s => (s.pc, s.x, s.flags.n)) = some (0x8001#16, 0x80#8, true) := by
  decide

/-- V13 (R145). -/
theorem test_tax_V13 :
    after 2 (((placed 0x8000#16 [0xAA#8]).withA 0x00#8).withX 0x55#8)
      (fun s => (s.pc, s.x, s.flags.z)) = some (0x8001#16, 0x00#8, true) := by
  decide

/-- V14 (R142). -/
theorem test_tay_V14 :
    after 2 (writeFlag .n true ((placed 0x8000#16 [0xA8#8]).withA 0x7F#8))
      (fun s => (s.pc, s.y, s.flags.n)) = some (0x8001#16, 0x7F#8, false) := by
  decide

/-- V15 (R140). -/
theorem test_txa_V15 :
    after 2 (((placed 0x8000#16 [0x8A#8]).withX 0xFF#8).withA 0x01#8)
      (fun s => (s.pc, s.a, s.flags.n)) = some (0x8001#16, 0xFF#8, true) := by
  decide

/-- V16 (R141). -/
theorem test_tya_V16 :
    after 2 (((placed 0x8000#16 [0x98#8]).withY 0x00#8).withA 0x33#8)
      (fun s => (s.pc, s.a, s.flags.z)) = some (0x8001#16, 0x00#8, true) := by
  decide

/-- V17 (R146). -/
theorem test_tsx_V17 :
    after 2 (placed 0x8000#16 [0xBA#8])
      (fun s => (s.pc, s.x, s.flags.n)) = some (0x8001#16, 0xFD#8, true) := by
  decide

/-- V18 (R149). -/
theorem test_txs_V18 :
    after 2 (writeFlag .n true (writeFlag .z false ((placed 0x8000#16 [0x9A#8]).withX 0x00#8)))
      (fun s => (s.pc, s.sp, s.flags.z, s.flags.n)) = some (0x8001#16, 0x00#8, false, true) := by
  decide

/-- V19 (R149). -/
theorem test_txs_V19 :
    after 2 ((placed 0x8000#16 [0x9A#8]).withX 0x80#8)
      (fun s => (s.pc, s.sp, s.flags.z, s.flags.n)) = some (0x8001#16, 0x80#8, false, false) := by
  decide

/-- V20 (R148). -/
theorem test_inx_V20 :
    after 2 ((placed 0x8000#16 [0xE8#8]).withX 0xFF#8)
      (fun s => (s.pc, s.x, s.flags.z, s.flags.c, s.flags.v)) = some (0x8001#16, 0x00#8, true, false, false) := by
  decide

/-- V21 (R148). -/
theorem test_inx_V21 :
    after 2 ((placed 0x8000#16 [0xE8#8]).withX 0x7F#8)
      (fun s => (s.pc, s.x, s.flags.n, s.flags.v)) = some (0x8001#16, 0x80#8, true, false) := by
  decide

/-- V22 (R147). -/
theorem test_dex_V22 :
    after 2 ((placed 0x8000#16 [0xCA#8]).withX 0x00#8)
      (fun s => (s.pc, s.x, s.flags.n)) = some (0x8001#16, 0xFF#8, true) := by
  decide

/-- V24 (R144). -/
theorem test_iny_V24 :
    after 2 ((placed 0x8000#16 [0xC8#8]).withY 0xFF#8)
      (fun s => (s.pc, s.y, s.flags.z)) = some (0x8001#16, 0x00#8, true) := by
  decide

/-- V24b (R144). -/
theorem test_iny_V24b :
    after 2 (((placed 0x8000#16 [0xC8#8]).withY 0x7F#8).withX 0x00#8)
      (fun s => (s.pc, s.y, s.flags.n)) = some (0x8001#16, 0x80#8, true) := by
  decide

/-- V25 (R143). -/
theorem test_dey_V25 :
    after 2 (((placed 0x8000#16 [0x88#8]).withY 0x01#8).withX 0x80#8)
      (fun s => (s.pc, s.y, s.flags.n, s.flags.z)) = some (0x8001#16, 0x00#8, true, false) := by
  decide

/-- V26 (R143). -/
theorem test_dey_V26 :
    after 2 (((placed 0x8000#16 [0x88#8]).withY 0x00#8).withX 0x00#8)
      (fun s => (s.pc, s.y, s.flags.z, s.flags.n)) = some (0x8001#16, 0xFF#8, true, false) := by
  decide

/-- V28 (R150). -/
theorem test_lda_imm_V28 :
    after 2 (placed 0x8000#16 [0xA9#8, 0x00#8])
      (fun s => (s.pc, s.flags.z)) = some (0x8002#16, true) := by
  decide

/-- V29 (R150). -/
theorem test_lda_imm_V29 :
    after 2 (placed 0x8000#16 [0xA9#8, 0x80#8])
      (fun s => (s.pc, s.a, s.flags.n, s.flags.z)) = some (0x8002#16, 0x80#8, true, false) := by
  decide

/-- V31 (R151). -/
theorem test_ldx_imm_V31 :
    after 2 (writeFlag .n true (placed 0x8000#16 [0xA2#8, 0x00#8]))
      (fun s => (s.pc, s.flags.z, s.flags.n)) = some (0x8002#16, false, true) := by
  decide

/-- V32 (R151). -/
theorem test_ldx_imm_V32 :
    after 2 (placed 0x8000#16 [0xA2#8, 0x80#8])
      (fun s => (s.pc, s.x, s.flags.n)) = some (0x8002#16, 0x80#8, false) := by
  decide

/-- V33 (R152). -/
theorem test_ldy_imm_V33 :
    after 2 (placed 0x8000#16 [0xA0#8, 0x00#8])
      (fun s => (s.pc, s.flags.z)) = some (0x8002#16, false) := by
  decide

/-- V34 (R152). -/
theorem test_ldy_imm_V34 :
    after 2 (writeFlag .z true (placed 0x8000#16 [0xA0#8, 0xFF#8]))
      (fun s => (s.pc, s.y, s.flags.z, s.flags.n)) = some (0x8002#16, 0xFF#8, true, false) := by
  decide

/-- V35 (R153). -/
theorem test_sta_zp_V35 :
    after 3 ((placed 0x8000#16 [0x85#8, 0x10#8]).withA 0x42#8)
      (fun s => (s.pc, hostRead s 0x0010#16)) = some (0x8002#16, 0x42#8) := by
  decide

/-- V40 (R153). -/
theorem test_sta_zp_V40 :
    after 3 (setRam 0x0000#16 0x55#8 ((placed 0x8000#16 [0x85#8, 0x00#8]).withA 0x00#8))
      (fun s => (s.pc, hostRead s 0x0000#16, s.flags.z)) = some (0x8002#16, 0x00#8, false) := by
  decide

/-- V36 (R154). -/
theorem test_stx_zp_V36 :
    after 3 ((placed 0x8000#16 [0x86#8, 0xFF#8]).withX 0x99#8)
      (fun s => (s.pc, hostRead s 0x00FF#16, s.flags.n)) = some (0x8002#16, 0x99#8, false) := by
  decide

/-- V37 (R155). -/
theorem test_sty_zp_V37 :
    after 3 ((placed 0x8000#16 [0x84#8, 0x00#8]).withY 0x01#8)
      (fun s => (s.pc, hostRead s 0x0000#16)) = some (0x8002#16, 0x01#8) := by
  decide

/-- V38 (R156). -/
theorem test_lda_zp_V38 :
    after 3 (setRam 0x0010#16 0x80#8 (placed 0x8000#16 [0xA5#8, 0x10#8]))
      (fun s => (s.pc, s.a, s.flags.n)) = some (0x8002#16, 0x80#8, true) := by
  decide

/-- V39 (R156). -/
theorem test_lda_zp_V39 :
    after 3 ((placed 0x8000#16 [0xA5#8, 0x20#8]).withA 0x55#8)
      (fun s => (s.pc, s.a, s.flags.z)) = some (0x8002#16, 0x00#8, true) := by
  decide

/-- V41 (R157, R44). -/
theorem test_sta_abs_V41 :
    after 4 ((placed 0x8000#16 [0x8D#8, 0x03#8, 0x08#8]).withA 0x07#8)
      (fun s => (s.pc, hostRead s 0x0003#16)) = some (0x8003#16, 0x07#8) := by
  decide

/-- V42 (R157, R42). -/
theorem test_sta_abs_rom_V42 :
    after 4 ((placed 0x8000#16 [0x8D#8, 0x00#8, 0x90#8]).withA 0x2A#8)
      (fun s => (s.pc, hostRead s 0x9000#16)) = some (0x8003#16, 0x00#8) := by
  decide

/-- V43 (R158, R44). -/
theorem test_stx_abs_V43 :
    after 4 ((placed 0x8000#16 [0x8E#8, 0xFF#8, 0x7F#8]).withX 0x11#8)
      (fun s => (s.pc, hostRead s 0x07FF#16)) = some (0x8003#16, 0x11#8) := by
  decide

/-- V44 (R159). -/
theorem test_sty_abs_V44 :
    after 4 ((placed 0x8000#16 [0x8C#8, 0x00#8, 0x01#8]).withY 0x22#8)
      (fun s => (s.pc, hostRead s 0x0100#16)) = some (0x8003#16, 0x22#8) := by
  decide

/-- V46 (R160). -/
theorem test_lda_abs_V46 :
    after 4 (placed 0x8000#16 [0xAD#8, 0x00#8, 0x80#8])
      (fun s => (s.pc, s.a, s.flags.n)) = some (0x8003#16, 0xAD#8, true) := by
  decide

/-- V47 (R160, R44). -/
theorem test_lda_abs_V47 :
    after 4 (setRam 0x0003#16 0x80#8 (placed 0x8000#16 [0xAD#8, 0x03#8, 0x10#8]))
      (fun s => (s.pc, s.a, s.flags.n)) = some (0x8003#16, 0x80#8, true) := by
  decide

/-- V48 (R161). -/
theorem test_pha_V48 :
    after 3 ((placed 0x8000#16 [0x48#8]).withA 0x42#8)
      (fun s => (s.pc, s.sp, hostRead s 0x01FD#16)) = some (0x8001#16, 0xFC#8, 0x42#8) := by
  decide

/-- V49 (R161, R49). -/
theorem test_pha_V49 :
    after 3 (((placed 0x8000#16 [0x48#8]).withA 0x11#8).withSp 0x00#8)
      (fun s => (s.pc, s.sp, hostRead s 0x0100#16)) = some (0x8001#16, 0xFF#8, 0x11#8) := by
  decide

/-- V50 (R162, R14). -/
theorem test_php_V50 :
    after 3 (placed 0x8000#16 [0x08#8])
      (fun s => (s.pc, s.sp, hostRead s 0x01FD#16)) = some (0x8001#16, 0xFC#8, 0x34#8) := by
  decide

/-- V52 (R162). -/
theorem test_php_V52 :
    after 3 (writeFlag .i false (placed 0x8000#16 [0x08#8]))
      (fun s => (s.pc, s.sp, hostRead s 0x01FD#16)) = some (0x8001#16, 0xFC#8, 0x30#8) := by
  decide

/-- V53 (R163). -/
theorem test_pla_V53 :
    after 4 (setRam 0x01FD#16 0x42#8 ((placed 0x8000#16 [0x68#8]).withSp 0xFC#8))
      (fun s => (s.pc, s.a, s.sp)) = some (0x8001#16, 0x42#8, 0xFD#8) := by
  decide

/-- V54 (R163, R49). -/
theorem test_pla_V54 :
    after 4 (setRam 0x0100#16 0x80#8 ((placed 0x8000#16 [0x68#8]).withSp 0xFF#8))
      (fun s => (s.pc, s.a, s.sp, s.flags.n)) = some (0x8001#16, 0x80#8, 0x00#8, true) := by
  decide

/-- V56 (R164, R15). -/
theorem test_plp_V56 :
    after 4 (setRam 0x01FD#16 0xC3#8 ((placed 0x8000#16 [0x28#8]).withSp 0xFC#8))
      (fun s => (s.pc, s.sp, s.flags)) = some (0x8001#16, 0xFD#8, ⟨true, true, false, false, true, true⟩) := by
  decide

/-- V58 (R164). -/
theorem test_plp_V58 :
    after 4 (setRam 0x01FD#16 0xFF#8 ((placed 0x8000#16 [0x28#8]).withSp 0xFC#8))
      (fun s => (s.pc, s.sp, s.flags)) = some (0x8001#16, 0xFD#8, ⟨true, true, true, true, true, true⟩) := by
  decide

/-- V64 (R165). -/
theorem test_bpl_V64 :
    after 3 (placed 0x8000#16 [0x10#8, 0x7F#8])
      (fun s => s.pc) = some 0x8081#16 := by
  decide

/-- V65 (R166). -/
theorem test_bmi_V65 :
    after 4 (writeFlag .n true (placed 0x8000#16 [0x30#8, 0x80#8]))
      (fun s => s.pc) = some 0x7F82#16 := by
  decide

/-- V66 (R166). -/
theorem test_bmi_V66 :
    after 3 (writeFlag .n false (placed 0x8000#16 [0x30#8, 0x80#8]))
      (fun s => s.pc) = some 0x8002#16 := by
  decide

/-- V67 (R167). -/
theorem test_bvc_V67 :
    after 3 (placed 0x8000#16 [0x50#8, 0x00#8])
      (fun s => s.pc) = some 0x8002#16 := by
  decide

/-- V68 (R168). -/
theorem test_bvs_V68 :
    after 3 (placed 0x8000#16 [0x70#8, 0x10#8])
      (fun s => s.pc) = some 0x8002#16 := by
  decide

/-- V69 (R169). -/
theorem test_bcc_V69 :
    after 3 (writeFlag .c false (placed 0x8000#16 [0x90#8, 0x05#8]))
      (fun s => s.pc) = some 0x8007#16 := by
  decide

/-- V71 (R169). -/
theorem test_bcc_V71 :
    after 3 (writeFlag .c true (placed 0x8000#16 [0x90#8, 0x05#8]))
      (fun s => s.pc) = some 0x8002#16 := by
  decide

/-- V70 (R170). -/
theorem test_bcs_V70 :
    after 4 (writeFlag .c true (placed 0x8000#16 [0xB0#8, 0xFB#8]))
      (fun s => s.pc) = some 0x7FFD#16 := by
  decide

/-- V63 (R171). -/
theorem test_bne_V63 :
    after 4 (writeFlag .z false (placed 0x8000#16 [0xD0#8, 0xFD#8]))
      (fun s => s.pc) = some 0x7FFF#16 := by
  decide

/-- V73 (R171, R103). -/
theorem test_bne_V73 :
    after 4 (placed 0x8100#16 [0xD0#8, 0xFE#8])
      (fun s => s.pc) = some 0x8100#16 := by
  decide

/-- V60 (R172, R103). -/
theorem test_beq_V60 :
    after 4 (writeFlag .z true (placed 0x8000#16 [0xF0#8, 0xFE#8]))
      (fun s => s.pc) = some 0x8000#16 := by
  decide

/-- V72 (R172, R103). -/
theorem test_beq_V72 :
    after 3 (writeFlag .z true (placed 0x80F0#16 [0xF0#8, 0x10#8]))
      (fun s => s.pc) = some 0x8102#16 := by
  decide

/-- V74 (R173). -/
theorem test_jmp_abs_V74 :
    after 3 (placed 0x8000#16 [0x4C#8, 0x00#8, 0x90#8])
      (fun s => s.pc) = some 0x9000#16 := by
  decide

/-- V76 (R174). -/
theorem test_jsr_V76 :
    after 6 (placed 0x8000#16 [0x20#8, 0x00#8, 0x90#8])
      (fun s => (s.pc, s.sp, hostRead s 0x01FC#16, hostRead s 0x01FD#16)) = some (0x9000#16, 0xFB#8, 0x02#8, 0x80#8) := by
  decide

/-- V77 (R174, R49). -/
theorem test_jsr_V77 :
    after 6 ((placed 0x8000#16 [0x20#8, 0x34#8, 0x12#8]).withSp 0x00#8)
      (fun s => (s.pc, s.sp, hostRead s 0x0100#16, hostRead s 0x01FF#16)) = some (0x1234#16, 0xFE#8, 0x80#8, 0x02#8) := by
  decide

/-- V79 (R175). -/
theorem test_rts_V79 :
    after 6 (setRam 0x01FD#16 0x80#8 (setRam 0x01FC#16 0x02#8 ((placed 0x8000#16 [0x60#8]).withSp 0xFB#8)))
      (fun s => (s.pc, s.sp)) = some (0x8003#16, 0xFD#8) := by
  decide

/-- V80 (R175, R11). -/
theorem test_rts_V80 :
    after 6 (setRam 0x01FD#16 0xFF#8 (setRam 0x01FC#16 0xFF#8 ((placed 0x8000#16 [0x60#8]).withSp 0xFB#8)))
      (fun s => (s.pc, s.sp)) = some (0x0000#16, 0xFD#8) := by
  decide

/-! ## The whole meaning of an instruction, one call of `exec` -/

/-- V76 by `exec`: the operand comes from the instruction. -/
theorem test_exec_jsr_V76 :
    (match exec (.jsr 0x9000#16) (placed 0x8000#16 []) with
      | .next t => some (t.pc, t.sp, t.mem)
      | .fault _ => none
      | .refused _ => none) = some (0x9000#16, 0xFB#8, ⟨[(0x1FC, 0x02#8), (0x1FD, 0x80#8)], []⟩) := by
  decide

/-! ## Witnesses: each obligation's hypotheses can be met -/

/-- A state that fetches `i`. -/
def fetching (i : Instr) : State := placed 0x8000#16 (encode i)

/-- What `Fetches (fetching i) i` comes to, as a check. -/
def fetchesCheck (i : Instr) : Bool :=
  match decodeAtPc (fetching i) with
  | .instr j _ => j == i
  | .unknownOpcode _ => false
  | .truncated _ => false
  | .empty => false

theorem fetches_of_check {i : Instr} (h : fetchesCheck i = true) : Fetches (fetching i) i := by
  refine ⟨rfl, rfl, ?_⟩
  unfold fetchesCheck at h
  split at h
  · rename_i rest hd
    exact ⟨rest, by rw [hd, eq_of_beq h]⟩
  all_goals exact absurd h (by decide)

/-- One term of every instruction without operand. -/
def sampleImplied : List Instr :=
  [.hlt, .clc, .sec, .cli, .sei, .clv, .cld, .sed, .nop, .txa, .tya, .tay, .dey, .iny, .tax, .tsx, .dex, .inx, .txs, .pha, .php,
    .pla, .plp, .rts]

/-- Terms of every instruction with an operand, at edge values. -/
def sampleOperands : List Instr :=
  [.ldaImm 0xFF#8, .ldxImm 0x80#8, .ldyImm 0x00#8, .staZp 0xFF#8, .stxZp 0x00#8, .styZp 0x10#8, .ldaZp 0xFF#8, .staAbs 0xFFFF#16,
    .stxAbs 0x7FFF#16, .styAbs 0x8000#16, .ldaAbs 0x0803#16, .bpl 0x7F#8, .bmi 0x80#8, .bvc 0x00#8, .bvs 0xFF#8, .bcc 0x80#8,
    .bcs 0x7F#8, .bne 0xFE#8, .beq 0xFE#8, .jmpAbs 0xFFFF#16, .jsr 0x9000#16]

/-- `Fetches` (InstrRule, StepRunsDecodedInstruction, EveryInstructionRunsInItsSteps, AccessesPerInstruction) can be met by every
instruction. -/
theorem witness_fetches_implied : ∀ i ∈ sampleImplied, Fetches (fetching i) i := fun i hi =>
  fetches_of_check ((by decide : ∀ i ∈ sampleImplied, fetchesCheck i = true) i hi)

theorem witness_fetches_operands : ∀ i ∈ sampleOperands, Fetches (fetching i) i := fun i hi =>
  fetches_of_check ((by decide : ∀ i ∈ sampleOperands, fetchesCheck i = true) i hi)

/-- EveryInstructionRunsInItsSteps, its second clause: a `k` between 0 and the step count. -/
theorem witness_step_between : 0 < 5 ∧ 5 < cycles (.jsr 0x9000#16) (fetching (.jsr 0x9000#16)) := by decide

/-- MicroRule's hypotheses, for every micro-op and every rest of the queue. -/
theorem witness_microRule (m : MicroOp) (q : List MicroOp) :
    ({ State.reset with queue := m :: q } : State).halted = false ∧ ({ State.reset with queue := m :: q } : State).queue = m :: q :=
  ⟨rfl, rfl⟩

/-- DecodeOfEncodeIsInstruction: the default `HLT_OPCODE`, and the legal byte 0xFF, with a well-formed instruction. -/
theorem witness_decodeOfEncode :
    hltOpcodeLegal 0x02#8 = true ∧ hltOpcodeLegal 0xFF#8 = true ∧ hltOpcodeLegal 0x00#8 = true ∧
    Instr.wellFormed (.jsr 0xFFFF#16) = true := by decide

/-- EncodeOfDecodeIsBytes, at each length. -/
theorem witness_encodeOfDecode :
    decode [0x60#8, 0x11#8] = .instr .rts [0x11#8] ∧ decode [0xF0#8, 0xFE#8] = .instr (.beq 0xFE#8) [] ∧
    decode [0x20#8, 0x34#8, 0x12#8] = .instr (.jsr 0x1234#16) [] := by decide

/-- AssembledOffsetReachesTarget: the last targets inside (0x8000 + 2 + 127, 0x8000 + 2 - 128) and the first outside. -/
theorem witness_assembledOffset :
    assembleOffset 0x8000#16 0x8081#16 = some 0x7F#8 ∧ assembleOffset 0x8000#16 0x7F82#16 = some 0x80#8 ∧
    assembleOffset 0x8000#16 0x8082#16 = none ∧ assembleOffset 0x8000#16 0x7F81#16 = none := by decide

/-- ResetMemoryAndVector: an address of each range, at its edge. -/
theorem witness_resetMemory : (0x7FFF#16).toNat < 0x8000 ∧ 0x8000 ≤ (0x8000#16).toNat := by decide

/-- RomIsLoadedOnceAndImmutable: a run from the reset with any image, and a run from a state. -/
theorem witness_romRun (img : Image) :
    runCycles 0 (resetImage img) = .next (resetImage img) ∧ 0x7FFF < 0x8000 ∧ runCycles 1 State.reset = .next (clockCycle State.reset) :=
  ⟨rfl, by decide, rfl⟩

/-- WriteVisibleAtEveryMirror: the first and the last byte, the nearest and the last mirror. -/
theorem witness_mirror :
    State.reset.mem.wf = true ∧ (0x7FFF#16).toNat = (0x07FF#16).toNat + 0x800 * 15 ∧ (0x07FF#16).toNat < 0x8000 ∧
    (0x7FFF#16).toNat < 0x8000 ∧ (0x0800#16).toNat = (0x0000#16).toNat + 0x800 * 1 ∧ isRom 0xFFFF#16 = true ∧
    romIndex 0xFFFF#16 = 0x7FFF := by decide

/-- WriteLeavesOtherBytes: two addresses of different bytes in each region, and an address at or above 0x8000. -/
theorem witness_writeOther :
    sameCell 0x0003#16 0x0004#16 = false ∧ sameCell 0x7FFF#16 0x8000#16 = false ∧ sameCell 0x8000#16 0x8800#16 = false ∧
    sameCell 0x0003#16 0x0803#16 = true ∧ 0x8000 ≤ (0x8000#16).toNat := by decide

/-- CanonicalMemoryIsDeterminedByReads: two memories in canonical form, reached by different writes, that read the same everywhere. -/
theorem witness_canonical :
    let m := memWrite State.reset.mem 0x0003#16 0x07#8
    let m' := memWrite (memWrite State.reset.mem 0x0003#16 0x01#8) 0x0803#16 0x07#8
    m.wf = true ∧ m'.wf = true ∧ ∀ addr : Word, memRead m addr = memRead m' addr :=
  ⟨by decide, by decide, fun addr => congrArg (memRead · addr) (by decide)⟩

/-- HaltedMachineIsFrozen: the state after an HLT is halted. -/
theorem witness_halted : after 2 (fetching .hlt) (fun s => s.halted) = some true := by decide

/-- UnknownOpcodeHaltsAndReports, HaltCauseIsReadable: unknown bytes at a boundary, 0x00 and 0xFF among them. -/
theorem witness_unknown :
    decodeAtPc (placed 0x8000#16 [0xFF#8]) = .unknownOpcode 0xFF#8 ∧ decodeAtPc (placed 0x8000#16 [0x00#8]) = .unknownOpcode 0x00#8 ∧
    (placed 0x8000#16 [0xFF#8]).halted = false ∧ (placed 0x8000#16 [0xFF#8]).queue = [] := by decide

/-- RegistersChangedOnlyByTheirInstructions: for each clause an instruction that does change the register. -/
theorem witness_registersChanged :
    (∃ t, exec (.ldaImm 0x01#8) State.reset = .next t ∧ t.a ≠ State.reset.a) ∧
    (∃ t, exec .inx State.reset = .next t ∧ t.x ≠ State.reset.x) ∧ (∃ t, exec .iny State.reset = .next t ∧ t.y ≠ State.reset.y) ∧
    (∃ t, exec .pha State.reset = .next t ∧ t.sp ≠ State.reset.sp) ∧
    (∃ t, exec .hlt State.reset = .next t ∧ t.halted ≠ State.reset.halted) ∧
    (∃ t, exec (.staZp 0x10#8) State.reset = .next t ∧ t.t0 ≠ State.reset.t0) ∧
    (∃ t, exec (.jmpAbs 0x9000#16) State.reset = .next t ∧ t.t1 ≠ State.reset.t1) := by
  refine ⟨⟨_, rfl, by decide⟩, ⟨_, rfl, by decide⟩, ⟨_, rfl, by decide⟩, ⟨_, rfl, by decide⟩, ⟨_, rfl, by decide⟩,
    ⟨_, rfl, by decide⟩, ⟨_, rfl, by decide⟩⟩

/-- FlagsChangedOnlyByTheirInstructions: for each clause an instruction that does change the flag. -/
theorem witness_flagsChanged :
    (∃ t, exec .sec State.reset = .next t ∧ t.flags.c ≠ State.reset.flags.c) ∧
    (∃ t, exec .cli State.reset = .next t ∧ t.flags.i ≠ State.reset.flags.i) ∧
    (∃ t, exec .sed State.reset = .next t ∧ t.flags.d ≠ State.reset.flags.d) ∧
    (∃ t, exec .plp (setRam 0x01FE#16 0xFF#8 State.reset) = .next t ∧ t.flags.v ≠ State.reset.flags.v) ∧
    (∃ t, exec .tax State.reset = .next t ∧ t.flags.z ≠ State.reset.flags.z) ∧
    (∃ t, exec .dex State.reset = .next t ∧ t.flags.n ≠ State.reset.flags.n) := by
  refine ⟨⟨_, rfl, by decide⟩, ⟨_, rfl, by decide⟩, ⟨_, rfl, by decide⟩, ⟨_, rfl, by decide⟩, ⟨_, rfl, by decide⟩,
    ⟨_, rfl, by decide⟩⟩

/-- MemoryChangedOnlyAtStoredAddresses: an address outside the two bytes JSR stores, with the stack pointer at its edge, and an
instruction that stores nothing. -/
theorem witness_storedAddresses :
    storedAddresses (.jsr 0x9000#16) (State.reset.withSp 0x00#8) = [0x0100#16, 0x01FF#16] ∧
    ((storedAddresses (.jsr 0x9000#16) (State.reset.withSp 0x00#8)).all fun b => !sameCell b 0x0101#16) = true ∧
    storedAddresses (.staAbs 0x9000#16) State.reset = [0x9000#16] ∧ storedAddresses .pla State.reset = [] := by decide

/-- StoredBytesReadBack: mirrors of the last zero-page byte, of the stack bytes at both edges of the page (`SP` 0x00 and its
predecessor 0xFF), the last RAM address, the first ROM address. -/
theorem witness_storedBytes :
    State.reset.mem.wf = true ∧ sameCell (zpAddress 0xFF#8) 0x08FF#16 = true ∧ sameCell 0x7FFF#16 0x07FF#16 = true ∧
    sameCell 0x8000#16 0x8000#16 = true ∧ sameCell (stackAddress 0x00#8) 0x7900#16 = true ∧
    sameCell (stackAddress (0x00#8 - 1)) 0x09FF#16 = true ∧ (∃ t, exec (.staZp 0xFF#8) State.reset = .next t) ∧
    (∃ t, exec (.staAbs 0x8000#16) State.reset = .next t) ∧ (∃ t, exec .php State.reset = .next t) ∧
    (∃ t, exec (.jsr 0x9000#16) State.reset = .next t) :=
  ⟨rfl, by decide, by decide, by decide, by decide, by decide, ⟨_, rfl⟩, ⟨_, rfl⟩, ⟨_, rfl⟩, ⟨_, rfl⟩⟩

/-- ReturnUndoesCall, PullUndoesPush: a start state, the stack pointer at its edge. -/
theorem witness_roundTrips :
    (State.reset.withSp 0x00#8).mem.wf = true ∧ (∃ u, exec (.jsr 0x9000#16) (State.reset.withSp 0x00#8) = .next u) ∧
    (∃ u, exec .pha (State.reset.withSp 0x00#8) = .next u) ∧ (∃ u, exec .php (State.reset.withSp 0x00#8) = .next u) :=
  ⟨rfl, ⟨_, rfl⟩, ⟨_, rfl⟩, ⟨_, rfl⟩⟩

/-- FetchStep: a running machine at a boundary, one with a queue, a halted one, and a byte that is no instruction's opcode. -/
theorem witness_fetchStep :
    State.reset.halted = false ∧ State.reset.queue = [] ∧
    ({ State.reset with queue := [.halt] } : State).queue = .halt :: [] ∧
    ({ State.reset with halted := true } : State).halted = true ∧ ∀ i : Instr, opcode i ≠ 0xFF#8 :=
  ⟨rfl, rfl, rfl, rfl, fun i => by cases i <;> simp [opcode, opcodeWith, Config.hltOpcode]⟩

/-- StackInstructions, its last clauses: a state that fetches a push and what `exec` answers there. -/
theorem witness_stackPadding : Fetches (fetching .plp) .plp ∧ ∃ t, exec .plp (fetching .plp) = .next t :=
  ⟨fetches_of_check (i := .plp) (by decide), ⟨_, rfl⟩⟩

/-- CycleMachineRefinesInstructionMachine, ScratchAndOpcodeRegisterAreHidden: a boundary. -/
theorem witness_boundary : (fetching (.jsr 0x9000#16)).queue = [] := by decide

/-- `Inv` (the invariant obligations) holds in the reset state and inside an instruction: PLA after its pull, two `Nop` pending. -/
theorem witness_inv_reset : Inv State.reset := ⟨rfl, .inl List.nil_suffix, fun _ => rfl, fun h => absurd h (by decide)⟩

theorem witness_inv_padding : Inv { State.reset with ir := 0x68#8, queue := [.nop, .nop] } :=
  ⟨rfl, .inr (.inr rfl), fun h => absurd h (by decide), fun h => absurd h (by decide)⟩

/-- OnlyHaltMicroOpsHalt: the two states whose next step halts. -/
theorem witness_halting :
    Inv { State.reset with ir := 0x02#8, queue := [.halt] } ∧ Inv { State.reset with ir := 0xFF#8, queue := [.haltUnknown] } ∧
    (clockCycle { State.reset with ir := 0x02#8, queue := [.halt] }).halted = true ∧
    (clockCycle { State.reset with ir := 0xFF#8, queue := [.haltUnknown] }).halted = true :=
  ⟨⟨rfl, .inl List.suffix_rfl, fun h => absurd h (by decide), fun h => absurd h (by decide)⟩,
   ⟨rfl, .inl List.suffix_rfl, fun h => absurd h (by decide), fun h => absurd h (by decide)⟩, rfl, rfl⟩

/-- HaltCauseIsReadable, first part: a state of the invariant that fetches HLT. -/
theorem witness_haltCause : Inv (fetching .hlt) ∧ Fetches (fetching .hlt) .hlt ∧ Inv (placed 0x8000#16 [0xFF#8]) :=
  ⟨⟨by decide, .inl List.nil_suffix, fun _ => rfl, fun h => Bool.noConfusion h⟩, fetches_of_check (i := .hlt) (by decide),
   ⟨by decide, .inl List.nil_suffix, fun _ => rfl, fun h => Bool.noConfusion h⟩⟩

/-- OverflowSetOnlyByPull: a step that sets V. -/
theorem witness_overflow :
    Inv { setRam 0x01FE#16 0x40#8 State.reset with ir := 0x28#8, queue := [.pullP] } ∧
    (clockCycle { setRam 0x01FE#16 0x40#8 State.reset with ir := 0x28#8, queue := [.pullP] }).flags.v = true :=
  ⟨⟨rfl, .inl List.suffix_rfl, fun h => absurd h (by decide), fun h => absurd h (by decide)⟩, by decide⟩

/-- StepWritesOnlyItsAccess: a step that writes, and one that does not. -/
theorem witness_stepWrites :
    stepAccess { State.reset with a := 0x42#8, t0 := 0xFF#8, queue := [.storeZp .a] } = some (.write 0x00FF#16 0x42#8) ∧
    stepAccess State.reset = some (.read 0x0000#16) ∧ stepAccess { State.reset with queue := [.nop] } = none := by decide

/-- StepReadsOnlyItsAccess: another memory that agrees at the address read. -/
theorem witness_stepReads :
    memRead (memWrite State.reset.mem 0x0003#16 0x07#8) 0x0000#16 = memRead State.reset.mem 0x0000#16 ∧
    memWrite State.reset.mem 0x0003#16 0x07#8 ≠ State.reset.mem := by decide

/-- HostLoopEndsAtTheHalt: a run that ends, in two steps of a fuel of five. -/
theorem witness_hostLoop : (hostLoop 5 (fetching .hlt)).1.halted = true ∧ (hostLoop 5 (fetching .hlt)).2 = 2 := by decide

/-- InterruptAndDecimalFlagsChangeNothing: a state of the invariant whose next step does not push the status byte. -/
theorem witness_interruptFlag :
    Inv { State.reset with ir := 0x28#8, queue := [.pullP] } ∧ ([MicroOp.pullP] : List MicroOp).head? ≠ some .pushP :=
  ⟨⟨rfl, .inl List.suffix_rfl, fun h => absurd h (by decide), fun h => absurd h (by decide)⟩, by decide⟩

/-- FetchWordIsFetchedNext: a table word of three bytes and a `PC` at the end of the address space. -/
theorem witness_fetchWord :
    (State.reset.withPc 0xFFFF#16).mem.wf = true ∧ decodeTableWord 24 0x900020 = some (.jsr 0x9000#16) := by decide

end Sys2Proof.Machine
end

section
/-! Memory over steps. A step changes memory by the write of its one access (R47, R114) and by nothing else, and a write does not
reach ROM (R42), so a run of any length leaves ROM as the construction loaded it (R21). -/

namespace Sys2Proof.Machine

/-! ## What one step does to memory -/

/-- The memory that an access leaves: a read, or no access, leaves it as it was. -/
def memAfter (access : Option Access) (m : Memory) : Memory :=
  match access with
  | some (.write addr v) => memWrite m addr v
  | some (.read _) => m
  | none => m

@[simp] theorem memAfter_none (m : Memory) : memAfter none m = m := rfl
@[simp] theorem memAfter_read (addr : Word) (m : Memory) : memAfter (some (.read addr)) m = m := rfl
@[simp] theorem memAfter_write (addr : Word) (v : Byte) (m : Memory) :
    memAfter (some (.write addr v)) m = memWrite m addr v := rfl

/-- A write at or above 0x8000 is discarded and one below it lands in RAM (R42). -/
@[simp] theorem memAfter_rom (access : Option Access) (m : Memory) : (memAfter access m).rom = m.rom := by
  match access with
  | none => rfl
  | some (.read _) => rfl
  | some (.write addr v) => exact memWrite_rom m addr v

@[simp] theorem regWrite_mem (r : Reg) (v : Byte) (s : State) : (regWrite r v s).mem = s.mem :=
  (regWrite_frame r v s).1

@[simp] theorem updateZN_mem (v : Byte) (s : State) : (updateZN v s).mem = s.mem := rfl

@[simp] theorem transferReg_mem (dst src : Reg) (zn : Bool) (s : State) : (transferReg dst src zn s).mem = s.mem := by
  cases zn <;> simp [transferReg]

@[simp] theorem countReg_mem (r : Reg) (d : Delta) (fs : Reg) (s : State) : (countReg r d fs s).mem = s.mem := by
  simp [countReg]

@[simp] theorem takeImm_mem (r : Reg) (zn : Bool) (b : Byte) (s : State) : (takeImm r zn b s).mem = s.mem := by
  cases zn <;> simp [takeImm]

/-- The table of R114 says all that a micro-op does to memory. -/
theorem execMicro_mem (m : MicroOp) (s : State) : (execMicro m s).mem = memAfter (microAccess m s) s.mem := by
  cases m with
  | transfer dst src zn => exact transferReg_mem dst src zn s
  | incDec r d fs => exact countReg_mem r d fs s
  | loadImm r zn => exact takeImm_mem r zn (streamByte s) s
  | branchTest f b =>
    simp only [execMicro, microAccess, branchIf_eq, padQueue_eq, memAfter_none]
    split <;> rfl
  | _ => rfl

/-- The step has taken the micro-op off the queue before its access is made. -/
@[simp] theorem microAccess_withQueue (m : MicroOp) (s : State) (q : List MicroOp) :
    microAccess m (s.withQueue q) = microAccess m s := by
  cases m with
  | storeZp r => cases r <;> rfl
  | storeAbs r => cases r <;> rfl
  | _ => rfl

@[simp] theorem fetchDecode_mem (s : State) : (fetchDecode s).mem = s.mem := rfl

/-- A step, whichever of the three cases of R80 it is, does to memory what its one access does (R47). -/
theorem clockCycle_mem (s : State) : (clockCycle s).mem = memAfter (stepAccess s) s.mem := by
  rcases clockCycle_cases s with ⟨hh, hs⟩ | ⟨hh, hq, hs⟩ | ⟨m, q, hh, hq, hs⟩
  · simp [hs, stepAccess, hh]
  · simp [hs, stepAccess, hh, hq]
  · simp [hs, stepAccess, hh, hq, execMicro_mem]

/-! ## ROM over a run -/

theorem clockCycle_rom (s : State) : (clockCycle s).mem.rom = s.mem.rom := by
  rw [clockCycle_mem, memAfter_rom]

theorem clockCycle_iterate_rom (n : Nat) (s : State) : (clockCycle^[n] s).mem.rom = s.mem.rom := by
  induction n generalizing s with
  | zero => rfl
  | succ n ih => rw [Function.iterate_succ_apply, ih, clockCycle_rom]

theorem runCycles_rom {s t : State} {n : Nat} (h : runCycles n s = .next t) : t.mem.rom = s.mem.rom := by
  rw [runCycles_eq] at h
  cases h
  exact clockCycle_iterate_rom n s

/-- Settles O9: every step leaves ROM alone, so by induction on the number of steps a run does, and what the reset put there is
`image[16 + k]`. -/
theorem romIsLoadedOnceAndImmutable : Obligations.RomIsLoadedOnceAndImmutable := by
  unfold Obligations.RomIsLoadedOnceAndImmutable
  refine ⟨fun img n t h k hk => ?_, fun s t n h => runCycles_rom h⟩
  have hrom : t.mem.rom = romCells img := by rw [runCycles_rom h, resetImage_mem, resetMemory_rom]
  rw [hrom]
  exact cellsRead_romCells img hk

end Sys2Proof.Machine
end

section
/-! Read after write (R41, R42). A write of RAM is found at every address with the same RAM index, its mirrors (R44), and at no
other; a write at or above 0x8000 is discarded (R55). -/

namespace Sys2Proof.Machine

/-! ## The addresses of one byte -/

/-- RAM repeats every 0x800 bytes (R44). -/
theorem ramIndex_eq_of_mirror {a b : Word} {k : Nat} (h : b.toNat = a.toNat + 0x800 * k) : ramIndex a = ramIndex b := by
  unfold ramIndex Config.ramSize
  rw [h, Nat.add_mul_mod_self_left]

/-- ROM is not mirrored (R44). -/
theorem romIndex_injective {a b : Word} (ha : isRom a = true) (hb : isRom b = true) (h : romIndex a = romIndex b) : a = b := by
  rw [isRom_true_iff] at ha hb
  unfold romIndex Config.romBase at h
  exact BitVec.eq_of_toNat_eq (by omega)

/-- Two addresses of RAM name one byte exactly when their indexes agree. -/
theorem sameCell_ram {a b : Word} (ha : a.toNat < 0x8000) (hb : b.toNat < 0x8000) :
    sameCell a b = (ramIndex a == ramIndex b) := by
  simp [sameCell, (isRom_false_iff a).2 ha, (isRom_false_iff b).2 hb]

/-! ## What a read finds after a write -/

/-- A write at or above 0x8000 is discarded (R42, R55). -/
theorem memWrite_of_rom {a : Word} (ha : 0x8000 ≤ a.toNat) (m : Memory) (v : Byte) : memWrite m a v = m := by
  simp only [memWrite, (isRom_true_iff a).2 ha, if_true]

/-- A read of the written RAM byte, at whichever of its addresses, gives the written byte. -/
theorem memRead_memWrite_ram {m : Memory} (hm : m.wf = true) {a b : Word} (ha : a.toNat < 0x8000) (hb : b.toNat < 0x8000)
    (h : ramIndex a = ramIndex b) (v : Byte) : memRead (memWrite m a v) b = v := by
  obtain ⟨hram, -⟩ := Bool.and_eq_true_iff.1 hm
  rw [memWrite_ram ha, memRead_ram hb, ← h]
  exact cellsRead_cellsWrite_same hram (ramIndex a) v

/-- A read of any other byte is as before the write. A write of ROM changes nothing, and a read of ROM does not look at RAM; what
is left is two RAM addresses, whose indexes differ. -/
theorem memRead_memWrite_other {a b : Word} (h : sameCell a b = false) (m : Memory) (v : Byte) :
    memRead (memWrite m a v) b = memRead m b := by
  rcases Nat.lt_or_ge a.toNat 0x8000 with ha | ha
  · rcases Nat.lt_or_ge b.toNat 0x8000 with hb | hb
    · have hij : ramIndex a ≠ ramIndex b := by simpa [sameCell_ram ha hb] using h
      rw [memWrite_ram ha, memRead_ram hb, memRead_ram hb]
      exact cellsRead_cellsWrite_other hij v
    · rw [memRead_rom hb, memRead_rom hb, memWrite_rom]
  · rw [memWrite_of_rom ha]

/-! ## The obligations -/

/-- Settles O10: mirrors share their RAM index, so a write at either is found at the other; ROM indexes do not repeat. -/
theorem writeVisibleAtEveryMirror : Obligations.WriteVisibleAtEveryMirror := by
  unfold Obligations.WriteVisibleAtEveryMirror
  refine ⟨fun m a b k v hm hab ha hb => ?_, fun a b => romIndex_injective⟩
  have hi : ramIndex a = ramIndex b := ramIndex_eq_of_mirror hab
  exact ⟨memRead_memWrite_ram hm ha hb hi v, memRead_memWrite_ram hm hb ha hi.symm v⟩

/-- Settles O11: the frame of a write below 0x8000, and of one at or above it, which is discarded. -/
theorem writeLeavesOtherBytes : Obligations.WriteLeavesOtherBytes := by
  unfold Obligations.WriteLeavesOtherBytes
  exact ⟨fun m a b v h => memRead_memWrite_other h m v, fun m a v ha => memWrite_of_rom ha m v⟩

end Sys2Proof.Machine
end

section
/-! The scheduler (spec/40_scheduler_microops.md R80 to R82): the three cases of a step with the access of each, what the decoder
answers for a byte of the opcode map and for every other byte, and `IR`, which the fetch alone writes. -/

namespace Sys2Proof.Machine

/-! ## The access of each case of a step -/

theorem stepAccess_halted {s : State} (h : s.halted = true) : stepAccess s = none := by
  simp [stepAccess, h]

theorem stepAccess_fetch {s : State} (h : s.halted = false) (hq : s.queue = []) : stepAccess s = some (.read s.pc) := by
  simp [stepAccess, h, hq]

theorem stepAccess_micro {s : State} {m : MicroOp} {q : List MicroOp} (h : s.halted = false) (hq : s.queue = m :: q) :
    stepAccess s = microAccess m s := by
  simp [stepAccess, h, hq]

/-! ## Fetch and decode -/

theorem fetchDecode_eq (s : State) :
    fetchDecode s =
      { s with ir := memRead s.mem s.pc, pc := s.pc + 1, queue := decodeQueue (memRead s.mem s.pc) } := rfl

/-- The map and the column of opcode bytes agree (R67): whatever the operand bytes, a row builds an instruction of its own opcode. -/
theorem opcodeWith_build (hlt l h : Byte) : ∀ r ∈ opcodeRows hlt, opcodeWith hlt (r.build l h) = r.opcode := by
  simp [opcodeRows, impliedRows, loadStoreRows, controlRows, opcodeWith]

/-- So a byte that the map has is the opcode of what its row builds. -/
theorem opcodeWith_of_lookupRow {hlt op : Byte} {r : OpcodeRow} (hr : lookupRow hlt op = some r) (l h : Byte) :
    opcodeWith hlt (r.build l h) = op := by
  unfold lookupRow at hr
  have hop : r.opcode = op := by simpa using List.find?_some hr
  rw [opcodeWith_build hlt l h r (List.mem_of_find?_eq_some hr), hop]

/-- A byte that no instruction has for its opcode is not in the map, so it queues `HaltUnknown` alone (R68, R131). -/
theorem decodeQueue_of_not_opcode {op : Byte} (hop : ∀ i : Instr, opcode i ≠ op) : decodeQueue op = [.haltUnknown] := by
  unfold decodeQueue
  split
  next r hr => exact absurd (opcodeWith_of_lookupRow hr 0 0) (hop (r.build 0 0))
  next => rfl

/-! ## `IR` is written by the fetch alone -/

@[simp] theorem regWrite_ir (r : Reg) (v : Byte) (s : State) : (regWrite r v s).ir = s.ir := by
  cases r <;> rfl

@[simp] theorem updateZN_ir (v : Byte) (s : State) : (updateZN v s).ir = s.ir := rfl

/-- No micro-op names `IR` (R17, R113). -/
@[simp] theorem execMicro_ir (m : MicroOp) (s : State) : (execMicro m s).ir = s.ir := by
  cases m with
  | transfer dst src zn => cases zn <;> simp [execMicro, transferReg]
  | incDec r d fs => simp [execMicro, countReg]
  | loadImm r zn => cases zn <;> simp [execMicro, takeImm]
  | branchTest f b =>
    simp only [execMicro, branchIf_eq, padQueue_eq]
    split <;> rfl
  | _ => rfl

/-! ## The obligation -/

/-- Settles O17: the three cases of R80, and what the decoder answers for a byte of the map and for any other. -/
theorem fetchStep : Obligations.FetchStep := by
  unfold Obligations.FetchStep
  refine ⟨fun s h hq => ⟨stepAccess_fetch h hq, ?_⟩, fun s m q h hq => ⟨?_, execMicro_ir m _⟩,
    fun s h => ⟨stepAccess_halted h, ?_⟩, decodeQueue_opcode, fun op => decodeQueue_of_not_opcode⟩
  · rw [step_eq, clockCycle_fetch h hq, fetchDecode_eq]
  · rw [step_eq, clockCycle_micro h hq, State.withQueue]
  · rw [step_eq, clockCycle_halted h]

end Sys2Proof.Machine
end

section
/-! The micro-ops one by one (R87 to R110). A rule for each kind of micro-op, with its register, flag or count left open where it has
one; an obligation then names the combinations that the decode lists use. -/

namespace Sys2Proof.Machine

/-- The scheduler's part of every rule, once: the step takes `m` off the queue and does `execMicro m`, so a rule is what `execMicro`
and the table of R114 say of `m`. -/
theorem microRule_of_execMicro {m : MicroOp} {access : State → Option Access} {effect : State → State}
    (heffect : ∀ s, execMicro m s = effect s) (haccess : ∀ s, microAccess m s = access s) : MicroRule m access effect := by
  intro s q h hq
  rw [step_eq, clockCycle_micro h hq, stepAccess_micro h hq, heffect, haccess]
  exact ⟨rfl, rfl⟩

/-! ## Registers and flags (R87 to R91) -/

theorem microRule_nop : MicroRule .nop (fun _ => none) (fun s => s) :=
  microRule_of_execMicro (fun _ => rfl) (fun _ => rfl)

theorem microRule_setFlag (f : Flag) (b : Bool) :
    MicroRule (.setFlag f b) (fun _ => none) (fun s => { s with flags := flagSet f b s.flags }) :=
  microRule_of_execMicro (fun _ => rfl) (fun _ => rfl)

/-- The flags are those of the byte moved, since `dst` reads as what was written to it. -/
theorem microRule_transfer_setZN (dst src : Reg) :
    MicroRule (.transfer dst src true) (fun _ => none)
      (fun s => updateZN (regRead src s) (regWrite dst (regRead src s) s)) :=
  microRule_of_execMicro (fun s => by simp [execMicro, transferReg, regRead_regWrite_same]) (fun _ => rfl)

theorem microRule_transfer_keepFlags (dst src : Reg) :
    MicroRule (.transfer dst src false) (fun _ => none) (fun s => regWrite dst (regRead src s) s) :=
  microRule_of_execMicro (fun s => by simp [execMicro, transferReg]) (fun _ => rfl)

/-- A count with flags from the counted register: that register is read after its write, so they are those of the new value. -/
theorem microRule_incDec_same (r : Reg) (d : Delta) :
    MicroRule (.incDec r d r) (fun _ => none)
      (fun s => updateZN (stepBy d (regRead r s)) (regWrite r (stepBy d (regRead r s)) s)) :=
  microRule_of_execMicro (fun s => by simp [execMicro, countReg, regRead_regWrite_same]) (fun _ => rfl)

/-- A count with flags from another register, as DEY has it (C4): the write does not reach that register. -/
theorem microRule_incDec_other {r fs : Reg} (hne : r ≠ fs) (d : Delta) :
    MicroRule (.incDec r d fs) (fun _ => none)
      (fun s => updateZN (regRead fs s) (regWrite r (stepBy d (regRead r s)) s)) :=
  microRule_of_execMicro (fun s => by simp [execMicro, countReg, regRead_regWrite_other hne]) (fun _ => rfl)

/-- Settles O19: each conjunct is the rule of its micro-op at the registers and flags it names; an immediate load is the law of
`takeImm`. -/
theorem registerMicroOps : Obligations.RegisterMicroOps := by
  unfold Obligations.RegisterMicroOps
  exact ⟨microRule_nop,
    microRule_setFlag .c false, microRule_setFlag .c true, microRule_setFlag .i false, microRule_setFlag .i true,
    microRule_setFlag .v false, microRule_setFlag .d false, microRule_setFlag .d true,
    microRule_transfer_setZN .a .x, microRule_transfer_setZN .a .y, microRule_transfer_setZN .y .a,
    microRule_transfer_setZN .x .a, microRule_transfer_setZN .x .sp, microRule_transfer_keepFlags .sp .x,
    microRule_incDec_other (by decide) .minus, microRule_incDec_same .y .plus, microRule_incDec_same .x .minus,
    microRule_incDec_same .x .plus,
    microRule_of_execMicro (fun s => takeImm_a_eq (streamByte s) s) (fun _ => rfl),
    microRule_of_execMicro (fun s => takeImm_x_eq (streamByte s) s) (fun _ => rfl),
    microRule_of_execMicro (fun s => takeImm_y_eq (streamByte s) s) (fun _ => rfl)⟩

/-! ## Operand bytes, loads and stores (R92 to R98, R104) -/

theorem microRule_storeZp (r : Reg) :
    MicroRule (.storeZp r) (fun s => some (.write (zpAddress s.t0) (regRead r s)))
      (fun s => { s with mem := memWrite s.mem (zpAddress s.t0) (regRead r s) }) :=
  microRule_of_execMicro (storeToZp_eq r) (fun _ => rfl)

theorem microRule_storeAbs (r : Reg) :
    MicroRule (.storeAbs r) (fun s => some (.write (absAddress s.t0 s.t1) (regRead r s)))
      (fun s => { s with mem := memWrite s.mem (absAddress s.t0 s.t1) (regRead r s) }) :=
  microRule_of_execMicro (storeToAbs_eq r) (fun _ => rfl)

/-- Settles O20: each fetch, load and store leaves what the law of its operation says, with the access of R114. -/
theorem operandAndDataMicroOps : Obligations.OperandAndDataMicroOps := by
  unfold Obligations.OperandAndDataMicroOps
  exact ⟨microRule_of_execMicro (fun s => takeLo_eq (streamByte s) s) (fun _ => rfl),
    microRule_of_execMicro (fun s => takeHi_eq (streamByte s) s) (fun _ => rfl),
    microRule_of_execMicro (fun s => takeHiNoInc_eq (streamByte s) s) (fun _ => rfl),
    microRule_storeZp .a, microRule_storeZp .x, microRule_storeZp .y,
    microRule_of_execMicro loadFromZp_eq (fun _ => rfl),
    microRule_storeAbs .a, microRule_storeAbs .x, microRule_storeAbs .y,
    microRule_of_execMicro loadFromAbs_eq (fun _ => rfl),
    microRule_of_execMicro (fun s => takeHiJump_eq (streamByte s) s) (fun _ => rfl)⟩

/-! ## The stack (R99 to R102, R105, R106, R108, R109) -/

/-- A push with its padding: the padding goes behind what is left of the queue, and the push does not touch the queue. -/
theorem padQueue_pushByte_eq (k : Nat) (b : Byte) (s : State) :
    padQueue k (pushByte b s) =
      { s with mem := memWrite s.mem (stackAddress s.sp) b, sp := s.sp - 1, queue := s.queue ++ List.replicate k .nop } := by
  rw [pushByte_eq, padQueue_eq]

theorem padQueue_pullToA_eq (k : Nat) (s : State) :
    padQueue k (pullToA s) =
      { s with sp := s.sp + 1, a := memRead s.mem (stackAddress (s.sp + 1)),
               flags := setZN (memRead s.mem (stackAddress (s.sp + 1))) s.flags,
               queue := s.queue ++ List.replicate k .nop } := by
  rw [pullToA_eq, padQueue_eq]

theorem padQueue_pullToFlags_eq (k : Nat) (s : State) :
    padQueue k (pullToFlags s) =
      { s with sp := s.sp + 1, flags := fromByte (memRead s.mem (stackAddress (s.sp + 1))),
               queue := s.queue ++ List.replicate k .nop } := by
  rw [pullToFlags_eq, padQueue_eq]

/-- Settles O21: PHA and PHP pad once, PLA and PLP twice; the pushes and pulls of `PC` and `T` do not pad. -/
theorem stackMicroOps : Obligations.StackMicroOps := by
  unfold Obligations.StackMicroOps
  exact ⟨microRule_of_execMicro (fun s => padQueue_pushByte_eq 1 s.a s) (fun _ => rfl),
    microRule_of_execMicro (fun s => padQueue_pushByte_eq 1 (toByte s.flags) s) (fun _ => rfl),
    microRule_of_execMicro (padQueue_pullToA_eq 2) (fun _ => rfl),
    microRule_of_execMicro (padQueue_pullToFlags_eq 2) (fun _ => rfl),
    microRule_of_execMicro (fun s => pushByte_eq (hi8 s.pc) s) (fun _ => rfl),
    microRule_of_execMicro (fun s => pushByte_eq (lo8 s.pc) s) (fun _ => rfl),
    microRule_of_execMicro pullToT0_eq (fun _ => rfl),
    microRule_of_execMicro pullToT1_eq (fun _ => rfl)⟩

/-! ## Branches and jumps (R103, R107, R110) -/

/-- A branch test whose flag has the wanted value moves `PC`, and pads when the offset byte is above 127 (C1, C2). -/
theorem execMicro_branchTest_taken {f : Flag} {b : Bool} {s : State} (h : flagGet f s.flags = b) :
    execMicro (.branchTest f b) s =
      { s with pc := s.pc + sext16 s.t0, queue := if 127 < s.t0.toNat then s.queue ++ [.nop] else s.queue } := by
  have htaken : branchTaken f b s = true := beq_iff_eq.2 h
  by_cases hback : 127 < s.t0.toNat <;>
    simp [execMicro, branchPads, branchIf_eq, padQueue_eq, htaken, isBackward, hback, branchTarget]

/-- A branch test whose flag has the other value does nothing. -/
theorem execMicro_branchTest_notTaken {f : Flag} {b : Bool} {s : State} (h : flagGet f s.flags ≠ b) :
    execMicro (.branchTest f b) s = s := by
  have htaken : branchTaken f b s = false := beq_eq_false_iff_ne.2 h
  simp [execMicro, branchPads, branchIf_eq, htaken]

/-- Settles O22: the two cases of a branch test, and the laws of the jump and of the return. -/
theorem branchAndJumpMicroOps : Obligations.BranchAndJumpMicroOps := by
  unfold Obligations.BranchAndJumpMicroOps
  refine ⟨fun f b => microRule_of_execMicro (fun s => ?_) (fun _ => rfl),
    microRule_of_execMicro jumpToT_eq (fun _ => rfl), microRule_of_execMicro returnToT_eq (fun _ => rfl)⟩
  split
  next h => exact execMicro_branchTest_taken h
  next h => exact execMicro_branchTest_notTaken h

end Sys2Proof.Machine
end

section
/-! Decode and encode (spec/30_encoding.md). What the rows of the opcode map build agrees with the encoder's columns, for any
`HLT_OPCODE`; from that the decoder is read backwards once, and every statement about it follows. -/

namespace Sys2Proof

open Sys2Proof.Machine

/-! ## The rows of the map -/

/-- The operand bytes of a format, in stream order, out of the two that a row is given (R60, R64). -/
def Format.operands : Format → Byte → Byte → List Byte
  | .imp, _, _ => []
  | .imm, l, _ => [l]
  | .zp, l, _ => [l]
  | .rel, l, _ => [l]
  | .abs, l, h => [l, h]

/-- A row's format and the encoder's operand bytes agree. -/
theorem operandBytes_build (hlt l h : Byte) :
    ∀ r ∈ opcodeRows hlt, operandBytes (r.build l h) = r.format.operands l h := by
  simp [opcodeRows, impliedRows, loadStoreRows, controlRows, operandBytes, Format.operands]

theorem encodeWith_build {hlt op : Byte} {r : OpcodeRow} (hr : lookupRow hlt op = some r) (l h : Byte) :
    encodeWith hlt (r.build l h) = op :: r.format.operands l h := by
  rw [encodeWith, opcodeWith_of_lookupRow hr, operandBytes_build hlt l h r (List.mem_of_find?_eq_some hr)]

/-- The opcode map has a row for every instruction's opcode. -/
theorem lookupRow_opcode_isSome (i : Instr) : (lookupRow Config.hltOpcode (opcode i)).isSome = true := by
  cases i <;> rfl

/-- The unknown bytes are those that no instruction has for its opcode (R68). -/
theorem lookupRow_eq_none_iff (op : Byte) : lookupRow Config.hltOpcode op = none ↔ ∀ i : Instr, opcode i ≠ op := by
  constructor
  · rintro hnone i rfl
    simpa [hnone] using lookupRow_opcode_isSome i
  · intro hop
    cases hr : lookupRow Config.hltOpcode op with
    | none => rfl
    | some r => exact absurd (opcodeWith_of_lookupRow hr 0 0) (hop (r.build 0 0))

/-- The length of an instruction is one opcode byte and its operand bytes (R71). -/
theorem instrLength_eq (i : Instr) : instrLength i = (operandBytes i).length + 1 := by
  cases i <;> rfl

theorem operandBytes_length_le (i : Instr) : (operandBytes i).length ≤ 2 := by
  cases i <;> simp [operandBytes]

/-! ## The decoder read backwards -/

/-- What the decoder answers is a known instruction only for an opcode of the map followed by the operand bytes of its row. -/
theorem decodeWith_eq_instr {hlt : Byte} {bytes rest : List Byte} {i : Instr} (h : decodeWith hlt bytes = .instr i rest) :
    ∃ op r l u, lookupRow hlt op = some r ∧ i = r.build l u ∧ bytes = op :: (r.format.operands l u ++ rest) := by
  match bytes with
  | [] => cases h
  | op :: tl =>
    simp only [decodeWith] at h
    split at h
    next => cases h
    next r hr =>
      refine ⟨op, r, ?_⟩
      split at h
      next hf => cases h; exact ⟨0, 0, hr, rfl, by simp [hf, Format.operands]⟩
      next b tl' hf => cases h; exact ⟨b, 0, hr, rfl, by simp [hf, Format.operands]⟩
      next b tl' hf => cases h; exact ⟨b, 0, hr, rfl, by simp [hf, Format.operands]⟩
      next b tl' hf => cases h; exact ⟨b, 0, hr, rfl, by simp [hf, Format.operands]⟩
      next l u tl' hf => cases h; exact ⟨l, u, hr, rfl, by simp [hf, Format.operands]⟩
      next => cases h

theorem encode_of_decode {bytes rest : List Byte} {i : Instr} (h : decode bytes = .instr i rest) : bytes = encode i ++ rest := by
  obtain ⟨op, r, l, u, hr, rfl, rfl⟩ := decodeWith_eq_instr h
  rw [encode, encodeWith_build hr, List.cons_append]

theorem decode_of_lookupRow_none {op : Byte} (h : lookupRow Config.hltOpcode op = none) (rest : List Byte) :
    decode (op :: rest) = .unknownOpcode op := by
  simp only [decode, decodeWith, h]

theorem decode_eq_unknown_iff (op op' : Byte) (rest : List Byte) :
    decode (op :: rest) = .unknownOpcode op' ↔ op' = op ∧ lookupRow Config.hltOpcode op = none := by
  cases hr : lookupRow Config.hltOpcode op with
  | none => simp [decode_of_lookupRow_none hr, eq_comm]
  | some r =>
    simp only [decode, decodeWith, hr, reduceCtorEq, and_false, iff_false]
    split <;> simp

/-- Settles O2: the decoder read backwards, with the length of each format. -/
theorem encodeOfDecodeIsBytes : Obligations.EncodeOfDecodeIsBytes := by
  unfold Obligations.EncodeOfDecodeIsBytes
  intro bytes rest i h
  have hlen := instrLength_eq i
  have hle := operandBytes_length_le i
  have hbytes := encode_of_decode h
  refine ⟨hbytes, ?_, by omega, by omega⟩
  rw [hbytes, List.length_append, hlen]
  rfl

/-- Settles O3: the decoder answers "unknown" exactly where the map has no row. -/
theorem unknownExactlyOutsideOpcodeMap : Obligations.UnknownExactlyOutsideOpcodeMap := by
  unfold Obligations.UnknownExactlyOutsideOpcodeMap
  intro op rest
  rw [decode_eq_unknown_iff, ← lookupRow_eq_none_iff]
  simp

/-- Settles O4: the map is a closed table. -/
theorem opcodeMapHasFortyFiveRows : Obligations.OpcodeMapHasFortyFiveRows := by
  unfold Obligations.OpcodeMapHasFortyFiveRows
  exact ⟨rfl, by decide, rfl, rfl, rfl⟩

/-! ## The encoder read by the decoder -/

/-- With the default `HLT_OPCODE`: each encoding leads to the row of its own instruction, and an absolute address comes back from its
two bytes. -/
theorem decode_encode (i : Instr) (rest : List Byte) : decode (encode i ++ rest) = .instr i rest := by
  cases i with
  | staAbs w => exact congrArg (fun a => Decoded.instr (.staAbs a) rest) (word_hi8_lo8 w)
  | stxAbs w => exact congrArg (fun a => Decoded.instr (.stxAbs a) rest) (word_hi8_lo8 w)
  | styAbs w => exact congrArg (fun a => Decoded.instr (.styAbs a) rest) (word_hi8_lo8 w)
  | ldaAbs w => exact congrArg (fun a => Decoded.instr (.ldaAbs a) rest) (word_hi8_lo8 w)
  | jmpAbs w => exact congrArg (fun a => Decoded.instr (.jmpAbs a) rest) (word_hi8_lo8 w)
  | jsr w => exact congrArg (fun a => Decoded.instr (.jsr a) rest) (word_hi8_lo8 w)
  | _ => rfl

/-- A legal `HLT_OPCODE` is no other row's byte (decision D2). -/
theorem opcode_ne_of_legal {hlt : Byte} (h : hltOpcodeLegal hlt = true) {i : Instr} (hi : i ≠ .hlt) : hlt ≠ opcode i := by
  have hrow : ((opcodeRows hlt).tail.any fun r => r.opcode == opcode i) = true := by
    cases i with
    | hlt => exact absurd rfl hi
    | _ => rfl
  rintro rfl
  simp [hltOpcodeLegal, hrow] at h

/-- Another `HLT_OPCODE` changes the row of that byte and no other. -/
theorem lookupRow_of_ne {hlt hlt' op : Byte} (h : hlt ≠ op) (h' : hlt' ≠ op) : lookupRow hlt op = lookupRow hlt' op := by
  simp [lookupRow, opcodeRows, impliedRows, h, h']

theorem lookupRow_hlt (hlt : Byte) : lookupRow hlt hlt = some ⟨hlt, .imp, fun _ _ => .hlt⟩ := by
  simp [lookupRow, opcodeRows, impliedRows]

theorem opcodeWith_of_ne_hlt {i : Instr} (hi : i ≠ .hlt) (hlt : Byte) : opcodeWith hlt i = opcode i := by
  cases i with
  | hlt => exact absurd rfl hi
  | _ => rfl

/-- Settles O1: HLT is the first row whatever its byte; every other instruction is read as with the default byte, since a legal
byte leads no other opcode to the first row. -/
theorem decodeOfEncodeIsInstruction : Obligations.DecodeOfEncodeIsInstruction := by
  unfold Obligations.DecodeOfEncodeIsInstruction
  intro hlt hlegal i rest _
  by_cases hi : i = .hlt
  · subst hi
    simp [encodeWith, opcodeWith, operandBytes, decodeWith, lookupRow_hlt]
  · have hrow : lookupRow hlt (opcode i) = lookupRow Config.hltOpcode (opcode i) :=
      lookupRow_of_ne (opcode_ne_of_legal hlegal hi) (opcode_ne_of_legal (by decide) hi)
    rw [← decode_encode i rest, decode, encode]
    simp only [encodeWith, opcodeWith_of_ne_hlt hi, List.cons_append, decodeWith, hrow]

/-- Settles O5: the words are closed. -/
theorem writtenWordsDecode : Obligations.WrittenWordsDecode :=
  ⟨rfl, rfl, rfl, rfl, rfl, rfl, rfl, rfl⟩

/-! ## The assembler's offset (R65, R72) -/

theorem toInt_lo8 (w : Word) : (lo8 w).toInt = w.toInt.bmod 256 := by
  rw [BitVec.toInt_eq_toNat_bmod, BitVec.toInt_eq_toNat_bmod, lo8_toNat]
  exact_mod_cast (Int.emod_bmod (w.toNat : Int) 256).trans (Int.bmod_bmod_of_dvd (by decide)).symm

/-- A word is the sign extension of its low byte exactly when it fits in that byte as a signed number. -/
theorem sext16_lo8_eq_iff (d : Word) : sext16 (lo8 d) = d ↔ -128 ≤ d.toInt ∧ d.toInt ≤ 127 := by
  rw [← BitVec.toInt_inj, sext16, BitVec.toInt_signExtend_of_le (by decide), toInt_lo8]
  constructor
  · intro h
    have := Int.bmod_lt (x := d.toInt) (m := 256) (by decide)
    have := Int.le_bmod (x := d.toInt) (m := 256) (by decide)
    omega
  · rintro ⟨h1, h2⟩
    exact Int.bmod_eq_of_le (by omega) (by omega)

theorem assembleOffset_eq (a d : Word) :
    assembleOffset a (a + 2 + d) = if -128 ≤ d.toInt ∧ d.toInt ≤ 127 then some (lo8 d) else none := by
  simp only [assembleOffset, add_sub_cancel_left, sext16_lo8_eq_iff]

/-- Settles O6: the offset byte is the low byte of the distance, kept when the distance is its sign extension. -/
theorem assembledOffsetReachesTarget : Obligations.AssembledOffsetReachesTarget := by
  unfold Obligations.AssembledOffsetReachesTarget
  intro a target
  obtain ⟨d, rfl⟩ : ∃ d, target = a + 2 + d := ⟨target - (a + 2), (add_sub_cancel _ _).symm⟩
  rw [add_sub_cancel_left, assembleOffset_eq]
  by_cases h : -128 ≤ d.toInt ∧ d.toInt ≤ 127
  · rw [if_pos h]
    refine ⟨fun rel hrel => ?_, fun hnone => (nomatch hnone), fun hout => absurd h hout⟩
    rw [← Option.some.inj hrel, branchDestination, (sext16_lo8_eq_iff d).2 h]
  · rw [if_neg h]
    exact ⟨fun rel hrel => (nomatch hrel), fun _ => h, fun _ => rfl⟩

end Sys2Proof
end

section
/-! Runs of an instruction (spec/40_scheduler_microops.md R80 to R86, spec/70_reset_and_hazards.md R227). `Run` follows the queue to
the next boundary, step by step; `instruction_run` builds it once for every instruction, and the number of steps, the effect, the
states in between and the memory accesses are read off it. -/

namespace Sys2Proof.Machine

/-! ## The bytes that are fetched -/

/-- The decoder at `PC` always has three bytes, so it finds an instruction or an unknown opcode. -/
theorem decodeAtPc_cases (s : State) :
    (∃ i rest, decodeAtPc s = .instr i rest) ∨ decodeAtPc s = .unknownOpcode (memRead s.mem s.pc) := by
  simp only [decodeAtPc, streamBytes, decode, decodeWith]
  split
  next => exact .inr rfl
  next r _ =>
    cases r.format with
    | imp => exact .inl ⟨_, _, rfl⟩
    | imm => exact .inl ⟨_, _, rfl⟩
    | zp => exact .inl ⟨_, _, rfl⟩
    | rel => exact .inl ⟨_, _, rfl⟩
    | abs => exact .inl ⟨_, _, rfl⟩

theorem Fetches.halted_eq {s : State} {i : Instr} (h : Fetches s i) : s.halted = false := by
  obtain ⟨hh, -⟩ := h
  exact hh

theorem Fetches.queue_eq {s : State} {i : Instr} (h : Fetches s i) : s.queue = [] := by
  obtain ⟨-, hq, -⟩ := h
  exact hq

/-- The bytes at `PC` are the encoding of the instruction that a machine fetches. -/
theorem Fetches.streamBytes_eq {s : State} {i : Instr} (h : Fetches s i) :
    ∃ rest, streamBytes s = opcode i :: (operandBytes i ++ rest) := by
  obtain ⟨-, -, rest, hd⟩ := h
  exact ⟨rest, encode_of_decode hd⟩

theorem Fetches.opcode_eq {s : State} {i : Instr} (h : Fetches s i) : memRead s.mem s.pc = opcode i := by
  obtain ⟨rest, hb⟩ := h.streamBytes_eq
  exact (List.cons.inj hb).1

theorem Fetches.operand_eq {s : State} {i : Instr} {b : Byte} (h : Fetches s i) (hops : operandBytes i = [b]) :
    memRead s.mem (s.pc + 1) = b := by
  obtain ⟨rest, hb⟩ := h.streamBytes_eq
  rw [hops] at hb
  exact (List.cons.inj (List.cons.inj hb).2).1

theorem Fetches.operands_eq {s : State} {i : Instr} {l u : Byte} (h : Fetches s i) (hops : operandBytes i = [l, u]) :
    memRead s.mem (s.pc + 1) = l ∧ memRead s.mem (s.pc + 1 + 1) = u := by
  obtain ⟨rest, hb⟩ := h.streamBytes_eq
  rw [hops, streamBytes, ← pc_add_two] at hb
  exact ⟨(List.cons.inj (List.cons.inj hb).2).1, (List.cons.inj (List.cons.inj (List.cons.inj hb).2).2).1⟩

/-- The first step of an instruction (R81, R82). -/
theorem Fetches.clockCycle_eq {s : State} {i : Instr} (h : Fetches s i) : clockCycle s = fetched i s := by
  rw [clockCycle_fetch h.halted_eq h.queue_eq, fetchDecode_eq, h.opcode_eq, decodeQueue_opcode, fetched]

/-! ## From a queue to the next boundary -/

/-- `Run s n tr t`: `s` runs, and after exactly `n` micro-ops, which make the accesses `tr`, the queue is empty for the first time,
in `t`. -/
inductive Run : State → Nat → List Access → State → Prop where
  | done {t : State} (hq : t.queue = []) : Run t 0 [] t
  | step {s t : State} {m : MicroOp} {q : List MicroOp} {n : Nat} {tr : List Access} (hh : s.halted = false)
      (hq : s.queue = m :: q) (hrun : Run (execMicro m (s.withQueue q)) n tr t) :
      Run s (n + 1) ((microAccess m s).toList ++ tr) t

theorem Run.queue_eq {s t : State} {n : Nat} {tr : List Access} (h : Run s n tr t) : t.queue = [] := by
  induction h with
  | done hq => exact hq
  | step _ _ _ ih => exact ih

theorem Run.runCycles_eq {s t : State} {n : Nat} {tr : List Access} (h : Run s n tr t) : runCycles n s = .next t := by
  induction h with
  | done _ => rfl
  | step hh hq _ ih => rw [runCycles_succ, clockCycle_micro hh hq, ih]

theorem Run.accessTrace_eq {s t : State} {n : Nat} {tr : List Access} (h : Run s n tr t) : accessTrace n s = tr := by
  induction h with
  | done _ => rfl
  | step hh hq _ ih => rw [accessTrace, stepAccess_micro hh hq, clockCycle_micro hh hq, ih]

/-- Before its last step a run is inside the instruction: it runs, has a queue, and keeps `IR`. -/
theorem Run.inside {s t : State} {n k : Nat} {tr : List Access} (h : Run s n tr t) (hk : k < n) :
    ∃ u, runCycles k s = .next u ∧ u.queue ≠ [] ∧ u.halted = false ∧ u.ir = s.ir := by
  induction h generalizing k with
  | done _ => omega
  | @step s _ m q _ _ hh hq _ ih =>
    cases k with
    | zero => exact ⟨s, rfl, by simp [hq], hh, rfl⟩
    | succ k =>
      obtain ⟨u, hrun, hne, hhu, hir⟩ := ih (Nat.lt_of_succ_lt_succ hk)
      refine ⟨u, ?_, hne, hhu, by simpa using hir⟩
      rw [runCycles_succ, clockCycle_micro hh hq, hrun]

/-! ## Every instruction -/

/-- The run of `i` from its fetch at `s`: it ends in what `exec` answers, after the steps of R227, with the accesses of R227, of
which those of the stored addresses are writes. -/
structure RunsAs (i : Instr) (s t : State) (tr : List Access) : Prop where
  exec_eq : exec i s = .next t
  run : Run (fetched i s) (cycles i s - 1) tr t
  reads : tr.countP Access.isRead + 1 + (storedAddresses i s).length = accessCount i
  writes : tr.countP Access.isWrite = (storedAddresses i s).length

theorem run_nop {s : State} (hh : s.halted = false) (hq : s.queue = [.nop]) : Run s 1 [] (s.withQueue []) :=
  .step (tr := []) hh hq (.done rfl)

/-- A branch test alone in the queue: one step, and the step of its padding when it pads (C1, C2). -/
theorem run_branchTest {s : State} {f : Flag} {b : Bool} (hh : s.halted = false) (hq : s.queue = [.branchTest f b]) :
    Run s (branchCycles f b s.t0 s - 2) [] (branchIf f b (s.withQueue [])) := by
  have hexec : execMicro (.branchTest f b) (s.withQueue []) =
      if branchTaken f b s && isBackward s.t0 then padQueue 1 (branchIf f b (s.withQueue []))
      else branchIf f b (s.withQueue []) := rfl
  rw [branchIf_eq] at hexec ⊢
  unfold branchCycles
  split
  next hpad =>
    rw [if_pos hpad] at hexec
    refine .step (tr := []) hh hq ?_
    rw [hexec]
    exact run_nop (s := padQueue 1 _) hh rfl
  next hpad =>
    rw [if_neg hpad] at hexec
    refine .step (tr := []) hh hq ?_
    rw [hexec]
    exact .done rfl

theorem branchCycles_pos (f : Flag) (b : Bool) (rel : Byte) (s : State) : 3 ≤ branchCycles f b rel s := by
  unfold branchCycles
  split <;> omega

/-- All eight branches run alike. -/
theorem branch_run {s : State} {i : Instr} {f : Flag} {b : Bool} {rel : Byte} (h : Fetches s i)
    (hrel : operandBytes i = [rel]) (huops : microOps i = [.fetchLo, .branchTest f b])
    (hexec : exec i s = .next (branchIf f b (takeLo rel (takeOpcode (opcode i) s))))
    (hcycles : cycles i s = branchCycles f b rel s) (hstored : storedAddresses i s = []) (hcount : accessCount i = 2) :
    ∃ t tr, RunsAs i s t tr := by
  obtain rfl := h.operand_eq hrel
  have hq : (takeLo (memRead s.mem (s.pc + 1)) (takeOpcode (opcode i) s)).withQueue [] =
      takeLo (memRead s.mem (s.pc + 1)) (takeOpcode (opcode i) s) := by
    simp only [takeLo_eq, takeOpcode_eq, State.withQueue, ← h.queue_eq]
  have htest : Run ((takeLo (memRead s.mem (s.pc + 1)) (takeOpcode (opcode i) s)).withQueue [.branchTest f b])
      (branchCycles f b (memRead s.mem (s.pc + 1)) s - 2) [] _ := run_branchTest h.halted_eq rfl
  have hrun : Run (fetched i s) (branchCycles f b (memRead s.mem (s.pc + 1)) s - 2 + 1) ([.read (s.pc + 1)] ++ []) _ :=
    .step (s := fetched i s) h.halted_eq huops htest
  refine ⟨_, [.read (s.pc + 1)], hexec, ?_, by rw [hstored, hcount]; rfl, by rw [hstored]; rfl⟩
  have hpos := branchCycles_pos f b (memRead s.mem (s.pc + 1)) s
  rw [show cycles i s - 1 = branchCycles f b (memRead s.mem (s.pc + 1)) s - 2 + 1 by omega, ← hq]
  exact hrun

/-- Each instruction: the micro-ops of its decode list one after the other, the operand bytes being those of the stream. -/
theorem instruction_run {s : State} {i : Instr} (h : Fetches s i) : ∃ t tr, RunsAs i s t tr := by
  have hh := h.halted_eq
  have hq := h.queue_eq
  obtain ⟨a, x, y, pc, sp, flags, ir, t0, t1, queue, halted, dv, dop, mem⟩ := s
  subst hh hq
  cases i with
  | hlt | clc | sec | cli | sei | clv | cld | sed | nop | txa | tya | tay | tax | tsx | txs | dey | iny | dex | inx =>
    exact ⟨_, _, rfl, .step rfl rfl (.done rfl), rfl, rfl⟩
  | ldaImm b | ldxImm b | ldyImm b =>
    obtain rfl := h.operand_eq rfl
    exact ⟨_, _, rfl, .step rfl rfl (.done rfl), rfl, rfl⟩
  | staZp b | stxZp b | styZp b | ldaZp b =>
    obtain rfl := h.operand_eq rfl
    exact ⟨_, _, rfl, .step rfl rfl (.step rfl rfl (.done rfl)), rfl, rfl⟩
  | staAbs w | stxAbs w | styAbs w | ldaAbs w =>
    obtain ⟨hlo, hhi⟩ := h.operands_eq rfl
    refine ⟨_, _, ?_, .step rfl rfl (.step rfl rfl (.step rfl rfl (.done rfl))), rfl, rfl⟩
    simp only [exec, execStaAbs, execStxAbs, execStyAbs, execLdaAbs, ← hlo, ← hhi]
    rfl
  | jmpAbs w =>
    obtain ⟨hlo, hhi⟩ := h.operands_eq rfl
    refine ⟨_, _, ?_, .step rfl rfl (.step rfl rfl (.done rfl)), rfl, rfl⟩
    simp only [exec, execJmpAbs, ← hlo, ← hhi]
    rfl
  | jsr w =>
    obtain ⟨hlo, hhi⟩ := h.operands_eq rfl
    refine ⟨_, _, ?_, .step rfl rfl (.step rfl rfl (.step rfl rfl (.step rfl rfl (.step rfl rfl (.done rfl))))), rfl, rfl⟩
    simp only [exec, execJsr, ← hlo, ← hhi]
    rfl
  | rts =>
    exact ⟨_, _, rfl, .step rfl rfl (.step rfl rfl (.step rfl rfl (.step rfl rfl (.step rfl rfl (.done rfl))))), rfl, rfl⟩
  | pha | php => exact ⟨_, _, rfl, .step rfl rfl (.step rfl rfl (.done rfl)), rfl, rfl⟩
  | pla | plp => exact ⟨_, _, rfl, .step rfl rfl (.step rfl rfl (.step rfl rfl (.done rfl))), rfl, rfl⟩
  | _ => exact branch_run h rfl rfl rfl rfl rfl rfl

/-! ## What follows for the whole instruction -/

theorem cycles_pos (i : Instr) (s : State) : 2 ≤ cycles i s := by
  cases i with
  | bpl rel | bmi rel | bvc rel | bvs rel | bcc rel | bcs rel | bne rel | beq rel =>
    exact Nat.le_of_succ_le (branchCycles_pos _ _ rel s)
  | _ => exact Nat.le_of_ble_eq_true rfl

/-- The fetch is the first of the steps of an instruction. -/
theorem Fetches.runCycles_succ {s : State} {i : Instr} (h : Fetches s i) (k : Nat) :
    runCycles (k + 1) s = runCycles k (fetched i s) := by
  rw [Machine.runCycles_succ, h.clockCycle_eq]

theorem Fetches.accessTrace_succ {s : State} {i : Instr} (h : Fetches s i) (k : Nat) :
    accessTrace (k + 1) s = .read s.pc :: accessTrace k (fetched i s) := by
  rw [accessTrace, stepAccess_fetch h.halted_eq h.queue_eq, h.clockCycle_eq]
  rfl

/-- The steps of an instruction lead to what `exec` answers, and there the queue is empty. -/
theorem Fetches.exec_eq_runCycles {s : State} {i : Instr} (h : Fetches s i) :
    ∃ t, exec i s = .next t ∧ runCycles (cycles i s) s = .next t ∧ t.queue = [] := by
  obtain ⟨t, tr, hr⟩ := instruction_run h
  obtain ⟨k, hk⟩ := Nat.exists_eq_add_of_le' (cycles_pos i s)
  refine ⟨t, hr.exec_eq, ?_, hr.run.queue_eq⟩
  rw [hk, h.runCycles_succ, ← hr.run.runCycles_eq, hk]
  rfl

/-- The accesses of an instruction, the read of its opcode first. -/
theorem Fetches.accessTrace_counts {s : State} {i : Instr} (h : Fetches s i) :
    (accessTrace (cycles i s) s).countP Access.isRead + (storedAddresses i s).length = accessCount i ∧
      (accessTrace (cycles i s) s).countP Access.isWrite = (storedAddresses i s).length := by
  obtain ⟨t, tr, hr⟩ := instruction_run h
  obtain ⟨k, hk⟩ := Nat.exists_eq_add_of_le' (cycles_pos i s)
  have htr : accessTrace (cycles i s) s = .read s.pc :: tr := by
    rw [hk, h.accessTrace_succ, ← hr.run.accessTrace_eq, hk]
    rfl
  rw [htr, List.countP_cons_of_pos rfl, List.countP_cons_of_neg Bool.false_ne_true]
  exact ⟨hr.reads, hr.writes⟩

/-- Settles O41: the run of `i`, read at its end and before it. -/
theorem everyInstructionRunsInItsSteps : Obligations.EveryInstructionRunsInItsSteps := by
  unfold Obligations.EveryInstructionRunsInItsSteps
  intro s i h
  refine ⟨h.exec_eq_runCycles, fun k hpos hk => ?_⟩
  obtain ⟨t, tr, hr⟩ := instruction_run h
  obtain ⟨k, rfl⟩ := Nat.exists_eq_succ_of_ne_zero hpos.ne'
  rw [h.runCycles_succ]
  exact hr.run.inside (by omega)

/-- Settles O16: the fetch step, and the run from there. -/
theorem stepRunsDecodedInstruction : Obligations.StepRunsDecodedInstruction := by
  unfold Obligations.StepRunsDecodedInstruction
  intro s i h
  obtain ⟨t, tr, hr⟩ := instruction_run h
  exact ⟨congrArg Host.Outcome.next h.clockCycle_eq, hr.run.runCycles_eq.trans hr.exec_eq.symm⟩

theorem Access.countP_isRead_add_isWrite (tr : List Access) : tr.countP isRead + tr.countP isWrite = tr.length := by
  have hw : isWrite = fun x => !isRead x := by
    funext x
    cases x <;> rfl
  rw [List.length_eq_countP_add_countP isRead, hw]
  simp

/-- Settles O52: every access is a read or a write. -/
theorem accessesPerInstruction : Obligations.AccessesPerInstruction := by
  unfold Obligations.AccessesPerInstruction
  intro s i h
  obtain ⟨hreads, hwrites⟩ := h.accessTrace_counts
  rw [← Access.countP_isRead_add_isWrite, hwrites, hreads]

/-! ## Unknown opcodes and the halted machine -/

/-- An unknown opcode at a boundary: the fetch queues `HaltUnknown` alone, which halts and reports (R131). -/
theorem unknownOpcode_run {s : State} {op : Byte} (hh : s.halted = false) (hq : s.queue = [])
    (hd : decodeAtPc s = .unknownOpcode op) :
    clockCycle s = { s with ir := op, pc := s.pc + 1, queue := [.haltUnknown] } ∧
      clockCycle (clockCycle s) =
        { s with ir := op, pc := s.pc + 1, halted := true, diagValid := true, diagOpcode := op } := by
  obtain ⟨rfl, hrow⟩ := (decode_eq_unknown_iff _ _ _).1 hd
  have hfetch : clockCycle s = { s with ir := memRead s.mem s.pc, pc := s.pc + 1, queue := [.haltUnknown] } := by
    rw [clockCycle_fetch hh hq, fetchDecode_eq, decodeQueue_of_not_opcode ((lookupRow_eq_none_iff _).1 hrow)]
  refine ⟨hfetch, ?_⟩
  rw [hfetch]
  refine Eq.trans (clockCycle_micro hh rfl) ?_
  rw [← hq]
  rfl

/-- Settles O25: the two steps of an unknown opcode. -/
theorem unknownOpcodeHaltsAndReports : Obligations.UnknownOpcodeHaltsAndReports := by
  unfold Obligations.UnknownOpcodeHaltsAndReports
  intro s op hh hq hd
  obtain ⟨hone, htwo⟩ := unknownOpcode_run hh hq hd
  exact ⟨congrArg Host.Outcome.next hone, congrArg Host.Outcome.next htwo⟩

theorem runCycles_halted {s : State} (h : s.halted = true) (n : Nat) : runCycles n s = .next s := by
  rw [runCycles_eq, Function.iterate_fixed (clockCycle_halted h)]

/-- Settles O18: a halted state is a fixed point of the step. -/
theorem haltedMachineIsFrozen : Obligations.HaltedMachineIsFrozen := by
  unfold Obligations.HaltedMachineIsFrozen
  exact fun s n h => runCycles_halted h n

/-! ## Any number of instructions -/

/-- One instruction of the instruction-stepped machine is its step count of clock cycles, from a boundary to a boundary. -/
theorem instructionStep_eq_runCycles {s : State} (hq : s.queue = []) :
    ∃ t, instructionStep s = .next t ∧ runCycles (instructionCycles s) s = .next t ∧ t.queue = [] := by
  cases hh : s.halted with
  | true => exact ⟨s, by simp [instructionStep, hh], runCycles_halted hh _, hq⟩
  | false =>
    rcases decodeAtPc_cases s with ⟨i, rest, hd⟩ | hd
    · simp only [instructionStep, instructionCycles, hh, hd]
      exact Fetches.exec_eq_runCycles ⟨hh, hq, rest, hd⟩
    · simp only [instructionStep, instructionCycles, hh, hd, execUnknown]
      refine ⟨_, rfl, congrArg Host.Outcome.next (unknownOpcode_run hh hq hd).2, hq⟩

theorem runCycles_add {s t : State} {m : Nat} (h : runCycles m s = .next t) (n : Nat) :
    runCycles (m + n) s = runCycles n t := by
  rw [runCycles_eq] at h
  cases h
  rw [runCycles_eq, runCycles_eq, Nat.add_comm, Function.iterate_add_apply]

/-- Settles O42, by induction on the number of instructions: each starts at the boundary where the one before it ended. -/
theorem cycleMachineRefinesInstructionMachine : Obligations.CycleMachineRefinesInstructionMachine := by
  unfold Obligations.CycleMachineRefinesInstructionMachine
  intro n
  induction n with
  | zero => exact fun s _ => rfl
  | succ n ih =>
    intro s hq
    obtain ⟨t, hstep, hrun, hqt⟩ := instructionStep_eq_runCycles hq
    simp only [totalCycles, runInstructions, hstep]
    rw [runCycles_add hrun, ih t hqt]

end Sys2Proof.Machine
end

section
/-! The instructions one by one (spec/41_halt.md to spec/48_jumps_subroutines.md). What runs alike was said once for every instruction;
left for each is what `exec` answers, its decode list and its counts. -/

namespace Sys2Proof.Machine

/-- The scheduler's part of every instruction's rule, once. All but the effect is read off the tables of the model. -/
theorem instrRule_of_exec {i : Instr} {bytes : List Byte} {uops : List MicroOp} {reads writes : Nat} {steps : State → Nat}
    {effect : State → State} (hexec : ∀ s, exec i s = .next (effect s))
    (hcycles : ∀ s, cycles i s = steps s := by exact fun _ => rfl) (hbytes : encode i = bytes := by rfl) (huops : microOps i = uops := by rfl)
    (hwrites : ∀ s, (storedAddresses i s).length = writes := by exact fun _ => rfl)
    (hreads : accessCount i = reads + writes := by rfl) : InstrRule i bytes uops reads writes steps effect := by
  refine ⟨hbytes, huops, hexec, fun s h => ⟨congrArg Host.Outcome.next h.clockCycle_eq, hcycles s, ?_⟩⟩
  obtain ⟨t, ht, hrun, -⟩ := h.exec_eq_runCycles
  obtain ⟨hr, hw⟩ := h.accessTrace_counts
  rw [hwrites s] at hr hw
  rw [← hcycles s, hrun, ← ht]
  exact ⟨hexec s, by omega, hw⟩

/-! ## No operand, and an immediate byte (R111, R112, R130 to R152) -/

/-- Settles O23: the two halting micro-ops are the two halting conditions. -/
theorem haltMicroOps : Obligations.HaltMicroOps := by
  unfold Obligations.HaltMicroOps
  exact ⟨microRule_of_execMicro (fun _ => rfl) (fun _ => rfl), microRule_of_execMicro (fun _ => rfl) (fun _ => rfl)⟩

/-- Settles O24, from what `exec` answers for HLT. -/
theorem haltInstruction : Obligations.HaltInstruction := by
  unfold Obligations.HaltInstruction
  exact instrRule_of_exec exec_hlt

/-- Settles O26: one flag each. -/
theorem flagInstructions : Obligations.FlagInstructions := by
  unfold Obligations.FlagInstructions
  exact ⟨instrRule_of_exec exec_clc, instrRule_of_exec exec_sec, instrRule_of_exec exec_cli, instrRule_of_exec exec_sei,
    instrRule_of_exec exec_clv, instrRule_of_exec exec_cld, instrRule_of_exec exec_sed⟩

/-- Settles O27: the byte moved is in hand before the flags are set from it, and TXS sets none. -/
theorem nopAndTransferInstructions : Obligations.NopAndTransferInstructions := by
  unfold Obligations.NopAndTransferInstructions
  exact ⟨instrRule_of_exec exec_nop, instrRule_of_exec exec_txa, instrRule_of_exec exec_tya, instrRule_of_exec exec_tay,
    instrRule_of_exec exec_tax, instrRule_of_exec exec_tsx, instrRule_of_exec exec_txs⟩

/-- Settles O28: DEY alone takes its flags from another register than it counts (C4). -/
theorem incrementAndDecrementInstructions : Obligations.IncrementAndDecrementInstructions := by
  unfold Obligations.IncrementAndDecrementInstructions
  exact ⟨instrRule_of_exec exec_dey, instrRule_of_exec exec_iny, instrRule_of_exec exec_dex, instrRule_of_exec exec_inx⟩

/-- Settles O29: LDA# alone sets flags (C3). -/
theorem immediateLoadInstructions : Obligations.ImmediateLoadInstructions := by
  unfold Obligations.ImmediateLoadInstructions
  exact fun imm => ⟨instrRule_of_exec (exec_ldaImm imm), instrRule_of_exec (exec_ldxImm imm),
    instrRule_of_exec (exec_ldyImm imm)⟩

/-! ## Memory (R153 to R164) -/

/-- Settles O30: the zero-page address is the zero-extended operand. -/
theorem zeroPageInstructions : Obligations.ZeroPageInstructions := by
  unfold Obligations.ZeroPageInstructions
  exact fun zp => ⟨instrRule_of_exec (exec_staZp zp), instrRule_of_exec (exec_stxZp zp), instrRule_of_exec (exec_styZp zp),
    instrRule_of_exec (exec_ldaZp zp)⟩

/-- The address of an absolute operand is the operand. -/
@[simp] theorem absAddress_lo8_hi8 (w : Word) : absAddress (lo8 w) (hi8 w) = w := word_hi8_lo8 w

/-- Settles O31: the two operand bytes make the address again. -/
theorem absoluteInstructions : Obligations.AbsoluteInstructions := by
  unfold Obligations.AbsoluteInstructions
  intro w
  have hsta := exec_staAbs w
  have hstx := exec_stxAbs w
  have hsty := exec_styAbs w
  have hlda := exec_ldaAbs w
  rw [absAddress_lo8_hi8] at hsta hstx hsty hlda
  exact ⟨instrRule_of_exec hsta, instrRule_of_exec hstx, instrRule_of_exec hsty, instrRule_of_exec hlda⟩

/-- After two steps an instruction with one micro-op has run it. -/
theorem Fetches.runCycles_two {s : State} {i : Instr} {m : MicroOp} (h : Fetches s i) (huops : microOps i = [m]) :
    runCycles 2 s = .next (execMicro m ((takeOpcode (opcode i) s).withQueue [])) := by
  rw [h.runCycles_succ]
  exact congrArg Host.Outcome.next (clockCycle_micro (s := fetched i s) h.halted_eq huops)

/-- Settles O32: the rules of the pushes and pulls, and what their micro-op has queued after two steps. -/
theorem stackInstructions : Obligations.StackInstructions := by
  unfold Obligations.StackInstructions
  refine ⟨instrRule_of_exec exec_pha, instrRule_of_exec exec_php, instrRule_of_exec exec_pla, instrRule_of_exec exec_plp,
    fun s t h ht => ?pha, fun s t h ht => ?php, fun s t h ht => ?pla, fun s t h ht => ?plp⟩
  all_goals
    cases ht
    exact h.runCycles_two rfl

/-! ## Control (R165 to R175) -/

/-- The steps of a branch in words (R227, C1, C2). -/
theorem branchCycles_eq (f : Flag) (b : Bool) (rel : Byte) (s : State) :
    branchCycles f b rel s = if flagGet f s.flags = b ∧ 127 < rel.toNat then 4 else 3 := by
  simp [branchCycles, branchTaken, isBackward]

/-- Settles O33: each branch with its flag and polarity. -/
theorem branchInstructions : Obligations.BranchInstructions := by
  unfold Obligations.BranchInstructions
  exact fun rel => ⟨instrRule_of_exec (exec_bpl rel) (branchCycles_eq .n false rel),
    instrRule_of_exec (exec_bmi rel) (branchCycles_eq .n true rel), instrRule_of_exec (exec_bvc rel) (branchCycles_eq .v false rel),
    instrRule_of_exec (exec_bvs rel) (branchCycles_eq .v true rel), instrRule_of_exec (exec_bcc rel) (branchCycles_eq .c false rel),
    instrRule_of_exec (exec_bcs rel) (branchCycles_eq .c true rel), instrRule_of_exec (exec_bne rel) (branchCycles_eq .z false rel),
    instrRule_of_exec (exec_beq rel) (branchCycles_eq .z true rel)⟩

theorem sp_sub_two (b : Byte) : b - 1 - 1 = b - 2 := by bv_omega

theorem sp_add_two (b : Byte) : b + 1 + 1 = b + 2 := by bv_omega

/-- Settles O34: two pushes lower the stack pointer by two and two pulls raise it by two. -/
theorem jumpAndSubroutineInstructions : Obligations.JumpAndSubroutineInstructions := by
  unfold Obligations.JumpAndSubroutineInstructions
  refine ⟨fun w => ?_, ?_⟩
  · have hjmp := exec_jmpAbs w
    have hjsr := exec_jsr w
    simp only [absAddress_lo8_hi8, sp_sub_two] at hjmp hjsr
    exact ⟨instrRule_of_exec hjmp, instrRule_of_exec hjsr⟩
  · have hrts := exec_rts
    simp only [sp_add_two] at hrts
    exact instrRule_of_exec hrts

end Sys2Proof.Machine
end

section
/-! Flags, pages, the reset, and memory as data (spec/10_state.md, spec/20_memory.md, spec/70_reset_and_hazards.md). -/

namespace Sys2Proof.Machine

/-! ## The status byte (R13 to R16) -/

theorem toByte_toNat (f : Flags) : (toByte f).toNat = f.c.toNat + 2 * f.z.toNat + 4 * f.i.toNat + 8 * f.d.toNat + 16 + 32 +
    64 * f.v.toNat + 128 * f.n.toNat := by
  have := f.c.toNat_lt
  have := f.z.toNat_lt
  have := f.i.toNat_lt
  have := f.d.toNat_lt
  have := f.v.toNat_lt
  have := f.n.toNat_lt
  rw [toByte, BitVec.toNat_ofNat]
  omega

theorem fromByte_toByte (f : Flags) : fromByte (toByte f) = f := by
  obtain ⟨c, z, i, d, v, n⟩ := f
  revert c z i d v n
  decide

theorem toByte_fromByte (b : Byte) : toByte (fromByte b) = b ||| 0x30#8 := by
  revert b
  decide

theorem setZN_z_iff (v : Byte) (f : Flags) : (setZN v f).z = true ↔ v.toNat = 0 := by
  rw [setZN_z, beq_iff_eq, ← BitVec.toNat_inj]
  rfl

theorem setZN_n_iff (v : Byte) (f : Flags) : (setZN v f).n = true ↔ 127 < v.toNat := by
  rw [setZN_n, ← BitVec.msb_eq_getLsbD_last, BitVec.msb_eq_decide, decide_eq_true_iff]
  exact Nat.succ_le_iff

/-- Bits 4 and 5 are always set (R14). -/
theorem toByte_and_forced (f : Flags) : toByte f &&& 0x30#8 = 0x30#8 := by
  obtain ⟨c, z, i, d, v, n⟩ := f
  revert c z i d v n
  decide

/-- Settles O14: the layout as a number, and the two round trips. -/
theorem statusBytePacksAndUnpacks : Obligations.StatusBytePacksAndUnpacks := by
  unfold Obligations.StatusBytePacksAndUnpacks
  exact ⟨fun f => ⟨toByte_toNat f, toByte_and_forced f, fromByte_toByte f⟩, fun b => ⟨rfl, toByte_fromByte b⟩, rfl⟩

/-- Settles O15: Z is "is 0", N is "is above 127", which exclude each other. -/
theorem resultFlagsOfByte : Obligations.ResultFlagsOfByte := by
  unfold Obligations.ResultFlagsOfByte
  intro v f
  rw [setZN_z_iff, setZN_n_iff]
  exact ⟨Iff.rfl, Iff.rfl, by omega, rfl, rfl, rfl, rfl⟩

/-! ## The stack page and the zero page (R49, R50) -/

theorem stackAddress_toNat (b : Byte) : (stackAddress b).toNat = 0x100 + b.toNat := word_toNat Config.stackPage b

/-- Below 0x800 an address is its own RAM index. -/
theorem ramIndex_of_lt {addr : Word} (h : addr.toNat < 0x800) : ramIndex addr = addr.toNat := Nat.mod_eq_of_lt h

theorem stackAddress_lt (b : Byte) : (stackAddress b).toNat < 0x800 := by
  have := b.isLt
  rw [stackAddress_toNat]
  omega

theorem zpAddress_lt (b : Byte) : (zpAddress b).toNat < 0x800 := by
  have := b.isLt
  rw [zpAddress_toNat]
  omega

/-- Settles O13: both pages lie below 0x800. -/
theorem stackAndZeroPageAreRam : Obligations.StackAndZeroPageAreRam := by
  unfold Obligations.StackAndZeroPageAreRam
  intro b
  have hs := stackAddress_lt b
  have hz := zpAddress_lt b
  rw [isRom_false_iff, isRom_false_iff, ramIndex_of_lt hs, ramIndex_of_lt hz]
  exact ⟨stackAddress_toNat b, by omega, stackAddress_toNat b, zpAddress_toNat b, by omega, zpAddress_toNat b⟩

/-! ## The reset (R25, R54, R220, R221) -/

/-- Settles O7: the fields that `Reset` fills in. -/
theorem resetRegisters : Obligations.ResetRegisters := by
  unfold Obligations.ResetRegisters
  exact fun img => ⟨rfl, rfl, rfl, rfl, rfl, rfl, rfl, rfl, rfl, rfl, rfl, rfl, rfl⟩

theorem memRead_resetMemory_ram (img : Image) {addr : Word} (h : addr.toNat < 0x8000) :
    memRead (resetMemory img) addr = 0x00#8 := by
  rw [memRead_ram h, resetMemory_ram]
  rfl

theorem memRead_resetMemory_rom (img : Image) {addr : Word} (h : 0x8000 ≤ addr.toNat) :
    memRead (resetMemory img) addr = imageByte img (addr.toNat - 0x7FF0) := by
  have hindex : Config.headerSize + romIndex addr = addr.toNat - 0x7FF0 := by
    simp only [romIndex, Config.headerSize, Config.romBase]
    omega
  rw [memRead_rom h, resetMemory_rom, cellsRead_romCells img (romIndex_lt addr), hindex]

/-- Settles O8: RAM is empty, ROM is the image behind its header, and the vector is two of its bytes. -/
theorem resetMemoryAndVector : Obligations.ResetMemoryAndVector := by
  unfold Obligations.ResetMemoryAndVector
  intro img
  refine ⟨fun addr => memRead_resetMemory_ram img, fun addr => memRead_resetMemory_rom img, ?_⟩
  have hhi := memRead_resetMemory_rom img (addr := Config.resetVectorHi) (by decide)
  have hlo := memRead_resetMemory_rom img (addr := Config.resetVectorLo) (by decide)
  simp only [resetImage, resetVector, absAddress, hhi, hlo]
  rfl

/-! ## The canonical form is determined by what it reads -/

theorem cellsWf_cons_iff {size lo k : Nat} {b : Byte} {cs : List Host.Cell} :
    cellsWf size lo ((k, b) :: cs) = true ↔ lo ≤ k ∧ k < size ∧ b ≠ unlistedByte ∧ cellsWf size (k + 1) cs = true := by
  simp [cellsWf, and_assoc]

/-- Two canonical lists that read the same have no different first index: the lower one would be listed in one alone. -/
theorem not_lt_of_cellsRead_eq {size lo k k' : Nat} {b b' : Byte} {cs ds : List Host.Cell}
    (hc : cellsWf size lo ((k, b) :: cs) = true) (hd : cellsWf size lo ((k', b') :: ds) = true)
    (h : ∀ i < size, cellsRead ((k, b) :: cs) i = cellsRead ((k', b') :: ds) i) : ¬ k < k' := by
  obtain ⟨-, hk, hb, -⟩ := cellsWf_cons_iff.1 hc
  obtain ⟨-, hk', hb', hds⟩ := cellsWf_cons_iff.1 hd
  intro hlt
  have hread := h k hk
  rw [cellsRead_below (cellsWf_cons_iff.2 ⟨le_refl k', hk', hb', hds⟩) hlt, cellsRead, if_pos rfl] at hread
  exact hb hread

/-- By induction on the first list: the heads agree, and then what is left reads the same. -/
theorem cells_eq_of_cellsRead_eq {size lo : Nat} {cs ds : List Host.Cell} (hc : cellsWf size lo cs = true)
    (hd : cellsWf size lo ds = true) (h : ∀ i < size, cellsRead cs i = cellsRead ds i) : cs = ds := by
  induction cs generalizing lo ds with
  | nil =>
    cases ds with
    | nil => rfl
    | cons d ds =>
      obtain ⟨-, hk, hb, -⟩ := cellsWf_cons_iff.1 hd
      exact absurd (by simpa [cellsRead] using (h d.1 hk).symm) hb
  | cons c cs ih =>
    cases ds with
    | nil =>
      obtain ⟨-, hk, hb, -⟩ := cellsWf_cons_iff.1 hc
      exact absurd (by simpa [cellsRead] using h c.1 hk) hb
    | cons d ds =>
      obtain ⟨k, b⟩ := c
      obtain ⟨k', b'⟩ := d
      obtain rfl : k = k' := Nat.le_antisymm (Nat.not_lt.1 (not_lt_of_cellsRead_eq hd hc fun i hi => (h i hi).symm))
        (Nat.not_lt.1 (not_lt_of_cellsRead_eq hc hd h))
      obtain ⟨-, hk, -, hcs⟩ := cellsWf_cons_iff.1 hc
      obtain ⟨-, -, -, hds⟩ := cellsWf_cons_iff.1 hd
      obtain rfl : b = b' := by simpa [cellsRead] using h k hk
      rw [ih hcs hds fun i hi => ?_]
      by_cases hik : k = i
      · subst hik
        rw [cellsRead_below hcs (Nat.lt_succ_self k), cellsRead_below hds (Nat.lt_succ_self k)]
      · simpa [cellsRead, hik] using h i hi

/-- Settles O12: every index of either array has an address, so equal reads make equal arrays. -/
theorem canonicalMemoryIsDeterminedByReads : Obligations.CanonicalMemoryIsDeterminedByReads := by
  unfold Obligations.CanonicalMemoryIsDeterminedByReads
  intro m m' hm hm' h
  obtain ⟨hram, hrom⟩ := Bool.and_eq_true_iff.1 hm
  obtain ⟨hram', hrom'⟩ := Bool.and_eq_true_iff.1 hm'
  have eram : m.ram = m'.ram := by
    refine cells_eq_of_cellsRead_eq hram hram' fun i hi => ?_
    have hi' : i < 0x800 := hi
    have haddr : (BitVec.ofNat 16 i).toNat = i := Nat.mod_eq_of_lt (by omega)
    have hread := h (BitVec.ofNat 16 i)
    rwa [memRead_ram (by omega), memRead_ram (by omega), ramIndex_of_lt (by omega), haddr] at hread
  have erom : m.rom = m'.rom := by
    refine cells_eq_of_cellsRead_eq hrom hrom' fun i hi => ?_
    have hi' : i < 0x8000 := hi
    have haddr : (BitVec.ofNat 16 (0x8000 + i)).toNat = 0x8000 + i := Nat.mod_eq_of_lt (by omega)
    have hindex : romIndex (BitVec.ofNat 16 (0x8000 + i)) = i := by
      rw [romIndex, haddr]
      exact Nat.add_sub_cancel_left 0x8000 i
    have hread := h (BitVec.ofNat 16 (0x8000 + i))
    rwa [memRead_rom (by omega), memRead_rom (by omega), hindex] at hread
  obtain ⟨ram, rom⟩ := m
  exact congrArg₂ Memory.mk eram erom

/-! ## Bytes loaded from outside (R46) -/

theorem memRead_memLoad_same {m : Memory} (hm : m.wf = true) (addr : Word) (v : Byte) : memRead (memLoad m addr v) addr = v := by
  obtain ⟨hram, hrom⟩ := Bool.and_eq_true_iff.1 hm
  cases hr : isRom addr with
  | true => simpa [memRead, memLoad, hr] using cellsRead_cellsWrite_same hrom (romIndex addr) v
  | false => simpa [memRead, memLoad, hr] using cellsRead_cellsWrite_same hram (ramIndex addr) v

theorem memRead_memLoad_other {a b : Word} (h : sameCell a b = false) (m : Memory) (v : Byte) :
    memRead (memLoad m a v) b = memRead m b := by
  cases ha : isRom a with
  | true =>
    cases hb : isRom b with
    | true =>
      have hne : romIndex a ≠ romIndex b := fun he => by
        simp [sameCell, romIndex_injective ha hb he] at h
      simpa [memRead, memLoad, ha, hb] using cellsRead_cellsWrite_other hne v
    | false => simp [memRead, memLoad, ha, hb]
  | false =>
    cases hb : isRom b with
    | true => simp [memRead, memLoad, ha, hb]
    | false =>
      have hne : ramIndex a ≠ ramIndex b := by simpa [sameCell, ha, hb] using h
      simpa [memRead, memLoad, ha, hb] using cellsRead_cellsWrite_other hne v

/-- Addresses less than 0x800 apart never name one byte, the wrap of the address space included. -/
theorem sameCell_add_left {a d : Word} (hpos : 0 < d.toNat) (hlt : d.toNat < 0x800) : sameCell (a + d) a = false := by
  have hsum : (a + d).toNat = (a.toNat + d.toNat) % 0x10000 := BitVec.toNat_add a d
  have ha := a.isLt
  unfold sameCell
  split
  next => exact beq_eq_false_iff_ne.2 fun he => by rw [he] at hsum; omega
  next =>
    refine beq_eq_false_iff_ne.2 fun he => ?_
    simp only [ramIndex, Config.ramSize] at he
    omega

/-- Three bytes loaded at an address are what reads there and behind it give. -/
theorem memRead_memLoadList_three {m : Memory} (hm : m.wf = true) (p : Word) (b0 b1 b2 : Byte) :
    memRead (memLoadList m p [b0, b1, b2]) p = b0 ∧ memRead (memLoadList m p [b0, b1, b2]) (p + 1) = b1 ∧
      memRead (memLoadList m p [b0, b1, b2]) (p + 2) = b2 := by
  have h10 : sameCell (p + 1) p = false := sameCell_add_left (by decide) (by decide)
  have h21 : sameCell (p + 1 + 1) (p + 1) = false := sameCell_add_left (by decide) (by decide)
  have h20 : sameCell (p + 1 + 1) p = false := pc_add_two p ▸ sameCell_add_left (by decide) (by decide)
  have hm1 := memLoad_wf hm p b0
  have hm2 := memLoad_wf hm1 (p + 1) b1
  rw [← pc_add_two]
  simp only [memLoadList]
  refine ⟨?_, ?_, memRead_memLoad_same hm2 _ b2⟩
  · rw [memRead_memLoad_other h20, memRead_memLoad_other h10, memRead_memLoad_same hm]
  · rw [memRead_memLoad_other h21, memRead_memLoad_same hm1]

theorem decode_tableBytes {nbits w : Nat} {i : Instr} (h : decodeTableWord nbits w = some i) :
    ∃ rest, decode (tableBytes nbits w) = .instr i rest := by
  unfold decodeTableWord at h
  split at h
  next j rest hd => exact ⟨rest, Option.some.inj h ▸ hd⟩
  all_goals cases h

/-- Settles O56: the three bytes put at `PC` are the three bytes read from there. -/
theorem fetchWordIsFetchedNext : Obligations.FetchWordIsFetchedNext := by
  unfold Obligations.FetchWordIsFetchedNext
  intro s nbits w i hm h
  refine ⟨⟨rfl, rfl, ?_⟩, memLoadList_wf hm _ _, rfl⟩
  obtain ⟨rest, hd⟩ := decode_tableBytes h
  obtain ⟨h0, h1, h2⟩ := memRead_memLoadList_three hm s.pc _ _ _
  refine ⟨rest, ?_⟩
  rw [← hd]
  exact congrArg decode (List.cons_eq_cons.2 ⟨h0, List.cons_eq_cons.2 ⟨h1, List.cons_eq_cons.2 ⟨h2, rfl⟩⟩⟩)

end Sys2Proof.Machine
end

section
/-! Frames (spec/10_state.md, spec/20_memory.md): what each instruction leaves alone, and what a store, a call or a push leaves to be
read back. -/

namespace Sys2Proof.Machine

/-! ## What an instruction can change -/

/-- The bytes an instruction stores, in the order of `storedAddresses`. -/
def storedBytes (i : Instr) (s : State) : List Byte :=
  match i with
  | .staZp _ | .staAbs _ | .pha => [s.a]
  | .stxZp _ | .stxAbs _ => [s.x]
  | .styZp _ | .styAbs _ => [s.y]
  | .php => [toByte s.flags]
  | .jsr _ => [hi8 (s.pc + 2), lo8 (s.pc + 2)]
  | .hlt | .clc | .sec | .cli | .sei | .clv | .cld | .sed | .nop | .txa | .tya | .tay | .dey | .iny | .tax | .tsx | .dex
  | .inx | .txs | .ldaImm _ | .ldxImm _ | .ldyImm _ | .ldaZp _ | .ldaAbs _ | .pla | .plp | .bpl _ | .bmi _ | .bvc _ | .bvs _
  | .bcc _ | .bcs _ | .bne _ | .beq _ | .jmpAbs _ | .rts => []

/-- Writes one after the other. -/
def memWrites (m : Memory) : List (Word × Byte) → Memory
  | [] => m
  | w :: ws => memWrites (memWrite m w.1 w.2) ws

/-- What `exec i` can change outside the flags and memory (R10, R12, R17 to R19, R22). -/
def RegisterFrame (i : Instr) (s t : State) : Prop :=
  (t.a ≠ s.a → (∃ b, i = .ldaImm b) ∨ (∃ b, i = .ldaZp b) ∨ (∃ w, i = .ldaAbs w) ∨ i = .txa ∨ i = .tya ∨ i = .pla) ∧
  (t.x ≠ s.x → (∃ b, i = .ldxImm b) ∨ i = .tax ∨ i = .tsx ∨ i = .inx ∨ i = .dex) ∧
  (t.y ≠ s.y → (∃ b, i = .ldyImm b) ∨ i = .tay ∨ i = .iny ∨ i = .dey) ∧
  (t.sp ≠ s.sp → i = .txs ∨ i = .pha ∨ i = .php ∨ i = .pla ∨ i = .plp ∨ (∃ w, i = .jsr w) ∨ i = .rts) ∧
  (t.halted ≠ s.halted → i = .hlt) ∧ t.queue = s.queue ∧ t.diagValid = s.diagValid ∧ t.diagOpcode = s.diagOpcode ∧
  t.ir = opcode i ∧ (t.t0 ≠ s.t0 → instrFormat i = .zp ∨ instrFormat i = .rel ∨ instrFormat i = .abs ∨ i = .rts) ∧
  (t.t1 ≠ s.t1 → instrFormat i = .abs ∨ i = .rts)

/-- What `exec i` can change of the flags (R13). -/
def FlagFrame (i : Instr) (f g : Flags) : Prop :=
  (g.c ≠ f.c → i = .clc ∨ i = .sec ∨ i = .plp) ∧
  (g.i ≠ f.i → i = .cli ∨ i = .sei ∨ i = .plp) ∧
  (g.d ≠ f.d → i = .cld ∨ i = .sed ∨ i = .plp) ∧
  (g.v ≠ f.v → i = .clv ∨ i = .plp) ∧
  (g.z ≠ f.z ∨ g.n ≠ f.n →
    (∃ b, i = .ldaImm b) ∨ (∃ b, i = .ldaZp b) ∨ (∃ w, i = .ldaAbs w) ∨ i = .tax ∨ i = .tay ∨ i = .txa ∨ i = .tya ∨
      i = .tsx ∨ i = .inx ∨ i = .iny ∨ i = .dex ∨ i = .dey ∨ i = .pla ∨ i = .plp)

/-- The frame of every instruction, by its law: a field that its update does not name is the field of `s`, and memory changes by
the writes of the stored bytes alone. -/
theorem exec_frame {i : Instr} {s t : State} (h : exec i s = .next t) :
    RegisterFrame i s t ∧ FlagFrame i s.flags t.flags ∧
      t.mem = memWrites s.mem ((storedAddresses i s).zip (storedBytes i s)) := by
  cases i
  all_goals
    simp only [exec_hlt, exec_clc, exec_sec, exec_cli, exec_sei, exec_clv, exec_cld, exec_sed, exec_nop, exec_txa, exec_tya,
      exec_tay, exec_dey, exec_iny, exec_tax, exec_tsx, exec_dex, exec_inx, exec_txs, exec_ldaImm, exec_ldxImm, exec_ldyImm,
      exec_staZp, exec_stxZp, exec_styZp, exec_ldaZp, exec_staAbs, exec_stxAbs, exec_styAbs, exec_ldaAbs, exec_pha, exec_php,
      exec_pla, exec_plp, exec_bpl, exec_bmi, exec_bvc, exec_bvs, exec_bcc, exec_bcs, exec_bne, exec_beq, exec_jmpAbs, exec_jsr,
      exec_rts, Host.Outcome.next.injEq] at h
    subst h
    simp [RegisterFrame, FlagFrame, instrFormat, storedAddresses, storedBytes, memWrites]

theorem exec_mem {i : Instr} {s t : State} (h : exec i s = .next t) :
    t.mem = memWrites s.mem ((storedAddresses i s).zip (storedBytes i s)) := by
  obtain ⟨-, -, hmem⟩ := exec_frame h
  exact hmem

/-- Settles O35, from the frame of every instruction. -/
theorem registersChangedOnlyByTheirInstructions : Obligations.RegistersChangedOnlyByTheirInstructions := by
  unfold Obligations.RegistersChangedOnlyByTheirInstructions
  intro i s t h
  obtain ⟨hregs, -, -⟩ := exec_frame h
  exact hregs

/-- Settles O36, from the frame of every instruction. -/
theorem flagsChangedOnlyByTheirInstructions : Obligations.FlagsChangedOnlyByTheirInstructions := by
  unfold Obligations.FlagsChangedOnlyByTheirInstructions
  intro i s t h
  obtain ⟨-, hflags, -⟩ := exec_frame h
  exact hflags

theorem memRead_memWrites_other {ws : List (Word × Byte)} {addr : Word} (h : ∀ w ∈ ws, sameCell w.1 addr = false) (m : Memory) :
    memRead (memWrites m ws) addr = memRead m addr := by
  induction ws generalizing m with
  | nil => rfl
  | cons w ws ih =>
    obtain ⟨hw, hws⟩ := List.forall_mem_cons.1 h
    rw [memWrites, ih hws, memRead_memWrite_other hw]

/-- Settles O37: memory changes by the writes at the stored addresses. -/
theorem memoryChangedOnlyAtStoredAddresses : Obligations.MemoryChangedOnlyAtStoredAddresses := by
  unfold Obligations.MemoryChangedOnlyAtStoredAddresses
  intro i s t h
  have hmem := exec_mem h
  constructor
  · intro addr hother
    rw [hostRead, hmem]
    exact memRead_memWrites_other (fun w hw => hother w.1 (List.of_mem_zip (a := w.1) (b := w.2) hw).1) s.mem
  · intro hnone
    rw [hmem, hnone]
    rfl

/-! ## What is read back -/

/-- The names of one byte of storage: one address, or two of RAM with one index. -/
theorem sameCell_iff {a b : Word} :
    sameCell a b = true ↔ a = b ∨ (a.toNat < 0x8000 ∧ b.toNat < 0x8000 ∧ ramIndex a = ramIndex b) := by
  rw [← isRom_false_iff, ← isRom_false_iff]
  cases ha : isRom a <;> cases hb : isRom b <;> simp [sameCell, ha, hb]
  rintro rfl
  rfl

theorem sameCell_false_of_sameCell {a b c : Word} (hac : sameCell a c = true) (hba : sameCell b a = false) :
    sameCell b c = false := by
  rw [← Bool.not_eq_true, sameCell_iff] at hba ⊢
  intro hbc
  apply hba
  rcases sameCell_iff.1 hac with rfl | ⟨ha, hc, hi⟩
  · exact hbc
  · rcases hbc with rfl | ⟨hb, -, hi'⟩
    · exact .inr ⟨hc, ha, hi.symm⟩
    · exact .inr ⟨hb, ha, hi'.trans hi.symm⟩

/-- A read at any name of the written byte: the byte written, or at and above 0x8000 the old one. -/
theorem memRead_memWrite_sameCell {m : Memory} (hm : m.wf = true) {a b : Word} (h : sameCell a b = true) (v : Byte) :
    memRead (memWrite m a v) b = if a.toNat < 0x8000 then v else memRead m b := by
  split
  next ha =>
    rcases sameCell_iff.1 h with rfl | ⟨-, hb, hi⟩
    · exact memRead_memWrite_ram hm ha ha rfl v
    · exact memRead_memWrite_ram hm ha hb hi v
  next ha => rw [memWrite_of_rom (Nat.not_lt.1 ha)]

theorem memRead_memWrite_stack {m : Memory} (hm : m.wf = true) {sp : Byte} {b : Word} (h : sameCell (stackAddress sp) b = true)
    (v : Byte) : memRead (memWrite m (stackAddress sp) v) b = v := by
  rw [memRead_memWrite_sameCell hm h, if_pos (Nat.lt_trans (stackAddress_lt sp) (by decide))]

theorem sameCell_self (a : Word) : sameCell a a = true := sameCell_iff.2 (.inl rfl)

/-- The two bytes that JSR pushes are different bytes, the wrap of `SP` included. -/
theorem sameCell_stack_pred (sp : Byte) : sameCell (stackAddress (sp - 1)) (stackAddress sp) = false := by
  have hne : (sp - 1).toNat ≠ sp.toNat := by bv_omega
  rw [← Bool.not_eq_true, sameCell_iff, ramIndex_of_lt (stackAddress_lt _), ramIndex_of_lt (stackAddress_lt _),
    ← BitVec.toNat_inj, stackAddress_toNat, stackAddress_toNat]
  omega

/-- The memory that JSR leaves, read at either of its bytes. -/
theorem memRead_after_jsr_hi {m : Memory} (hm : m.wf = true) {sp : Byte} {addr : Word}
    (h : sameCell (stackAddress sp) addr = true) (hi lo : Byte) :
    memRead (memWrite (memWrite m (stackAddress sp) hi) (stackAddress (sp - 1)) lo) addr = hi := by
  rw [memRead_memWrite_other (sameCell_false_of_sameCell h (sameCell_stack_pred sp)), memRead_memWrite_stack hm h]

/-- An instruction with one store leaves its byte there, read at any name of that byte; at or above 0x8000 the old byte. -/
theorem hostRead_of_store {i : Instr} {s t : State} (hm : s.mem.wf = true) (ht : exec i s = .next t) {a addr : Word} {v : Byte}
    (ha : storedAddresses i s = [a]) (hv : storedBytes i s = [v]) (h : sameCell a addr = true) :
    hostRead t addr = if a.toNat < 0x8000 then v else hostRead s addr := by
  rw [hostRead, exec_mem ht, ha, hv]
  exact memRead_memWrite_sameCell hm h v

theorem hostRead_of_ram_store {i : Instr} {s t : State} (hm : s.mem.wf = true) (ht : exec i s = .next t) {a addr : Word}
    {v : Byte} (ha : storedAddresses i s = [a]) (hv : storedBytes i s = [v]) (h : sameCell a addr = true)
    (hram : a.toNat < 0x800) : hostRead t addr = v := by
  rw [hostRead_of_store hm ht ha hv h, if_pos (Nat.lt_trans hram (by decide))]

theorem mem_of_jsr {w : Word} {s t : State} (h : exec (.jsr w) s = .next t) :
    t.mem = memWrite (memWrite s.mem (stackAddress s.sp) (hi8 (s.pc + 2))) (stackAddress (s.sp - 1)) (lo8 (s.pc + 2)) :=
  exec_mem h

/-- Settles O38: each store is a write, read back at a name of its byte; the second push of JSR leaves the byte of the first. -/
theorem storedBytesReadBack : Obligations.StoredBytesReadBack := by
  unfold Obligations.StoredBytesReadBack
  intro s hm
  refine ⟨fun zp addr h => ?zeroPage, fun w addr h => ?absolute, fun addr h => ?stack, fun addr h w t ht => ?secondPush⟩
  case zeroPage =>
    have hram := zpAddress_lt zp
    exact ⟨fun t ht => hostRead_of_ram_store hm ht rfl rfl h hram, fun t ht => hostRead_of_ram_store hm ht rfl rfl h hram,
      fun t ht => hostRead_of_ram_store hm ht rfl rfl h hram⟩
  case absolute =>
    have ha : [absAddress (lo8 w) (hi8 w)] = [w] := by rw [absAddress_lo8_hi8]
    exact ⟨fun t ht => hostRead_of_store hm ht ha rfl h, fun t ht => hostRead_of_store hm ht ha rfl h,
      fun t ht => hostRead_of_store hm ht ha rfl h⟩
  case stack =>
    have hram := stackAddress_lt s.sp
    refine ⟨fun t ht => hostRead_of_ram_store hm ht rfl rfl h hram, fun t ht => hostRead_of_ram_store hm ht rfl rfl h hram,
      fun w t ht => ?_⟩
    rw [hostRead, mem_of_jsr ht, memRead_after_jsr_hi hm h]
  case secondPush => rw [hostRead, mem_of_jsr ht, memRead_memWrite_stack (memWrite_wf hm _ _) h]

/-! ## Round trips -/

/-- Settles O39: RTS pulls the two bytes that JSR pushed, low byte first, and goes one past the address they make. -/
theorem returnUndoesCall : Obligations.ReturnUndoesCall := by
  unfold Obligations.ReturnUndoesCall
  intro s u w hm h
  rw [exec_jsr] at h
  cases h
  have hlo := memRead_memWrite_stack (memWrite_wf hm (stackAddress s.sp) (hi8 (s.pc + 2))) (sameCell_self (stackAddress (s.sp - 1)))
    (lo8 (s.pc + 2))
  have hhi := memRead_after_jsr_hi hm (sameCell_self (stackAddress s.sp)) (hi8 (s.pc + 2)) (lo8 (s.pc + 2))
  refine ⟨_, exec_rts _, ?_, ?_, rfl, rfl, rfl, rfl⟩
  · simp only [sub_add_cancel, hlo, hhi, absAddress_lo8_hi8]
    bv_omega
  · simp only [sub_add_cancel]

/-- Settles O40: a pull reads the byte of the push before it. -/
theorem pullUndoesPush : Obligations.PullUndoesPush := by
  unfold Obligations.PullUndoesPush
  intro s u hm
  refine ⟨fun h a f => ?_, fun h a f => ?_⟩
  · rw [exec_pha] at h
    cases h
    have htop := memRead_memWrite_stack hm (sameCell_self (stackAddress s.sp)) s.a
    refine ⟨_, exec_pla _, ?_, ?_, ?_⟩ <;> simp only [sub_add_cancel, htop]
  · rw [exec_php] at h
    cases h
    have htop := memRead_memWrite_stack hm (sameCell_self (stackAddress s.sp)) (toByte s.flags)
    refine ⟨_, exec_plp _, ?_, ?_, rfl⟩ <;> simp only [sub_add_cancel, htop, fromByte_toByte]

end Sys2Proof.Machine
end

section
/-! The invariant (spec/40_scheduler_microops.md R85, R86, R113, R116, spec/60_exceptions.md R200 to R204). One list invariant says
what every decode list and every rest of one is: each micro-op a legal one, and those that pad or halt only at the end. -/

namespace Sys2Proof.Machine

/-! ## Legal queues -/

/-- The most padding that a micro-op appends (R85). -/
def MicroOp.maxPads : MicroOp → Nat
  | .pushA | .pushP | .branchTest _ _ => 1
  | .pullA | .pullP => 2
  | _ => 0

/-- Does the micro-op halt (R200)? -/
def MicroOp.halts : MicroOp → Bool
  | .halt | .haltUnknown => true
  | _ => false

/-- Each micro-op in the queue is in a legal combination, and one that pads or halts is the last. -/
def QueueOrdered : List MicroOp → Bool
  | [] => true
  | m :: q => m.wellFormed && (q.isEmpty || (m.maxPads == 0 && !m.halts)) && QueueOrdered q

/-- The most steps that a queue takes, its padding included. -/
def queueSteps : List MicroOp → Nat
  | [] => 0
  | m :: q => m.maxPads + 1 + queueSteps q

theorem queueOrdered_cons {m : MicroOp} {q : List MicroOp} (h : QueueOrdered (m :: q) = true) :
    m.wellFormed = true ∧ (q = [] ∨ (m.maxPads = 0 ∧ m.halts = false)) ∧ QueueOrdered q = true := by
  simpa [QueueOrdered, and_assoc] using h

/-- A decode list is that of an instruction or `HaltUnknown` alone. -/
theorem decodeQueue_cases (op : Byte) : (∃ i, decodeQueue op = microOps i) ∨ decodeQueue op = [.haltUnknown] := by
  unfold decodeQueue
  split
  next r _ => exact .inl ⟨r.build 0 0, rfl⟩
  next => exact .inr rfl

theorem decodeQueue_ordered (op : Byte) : QueueOrdered (decodeQueue op) = true := by
  rcases decodeQueue_cases op with ⟨i, h⟩ | h
  · rw [h]
    cases i <;> rfl
  · rw [h]
    rfl

theorem decodeQueue_steps (op : Byte) : queueSteps (decodeQueue op) ≤ 5 := by
  rcases decodeQueue_cases op with ⟨i, h⟩ | h
  · rw [h]
    cases i <;> exact Nat.le_of_ble_eq_true rfl
  · rw [h]
    exact Nat.le_of_ble_eq_true rfl

theorem QueueOrdered.of_suffix {q l : List MicroOp} (hs : q <:+ l) (h : QueueOrdered l = true) : QueueOrdered q = true := by
  induction l with
  | nil => rwa [List.suffix_nil.1 hs]
  | cons m l ih =>
    rcases List.suffix_cons_iff.1 hs with rfl | hs
    · exact h
    · obtain ⟨-, -, hl⟩ := queueOrdered_cons h
      exact ih hs hl

theorem queueSteps_le_of_suffix {q l : List MicroOp} (hs : q <:+ l) : queueSteps q ≤ queueSteps l := by
  obtain ⟨p, rfl⟩ := hs
  induction p with
  | nil => exact le_rfl
  | cons m p ih => exact Nat.le_trans ih (Nat.le_add_left _ _)

theorem Inv.mem_wf {s : State} (h : Inv s) : s.mem.wf = true := by
  obtain ⟨hm, -⟩ := h
  exact hm

theorem Inv.queueLegal {s : State} (h : Inv s) : QueueLegal s := by
  obtain ⟨-, hq, -⟩ := h
  exact hq

theorem Inv.haltConsistent {s : State} (h : Inv s) : HaltConsistent s := by
  obtain ⟨-, -, hc⟩ := h
  exact hc

theorem Inv.queue_of_halted {s : State} (h : Inv s) (hh : s.halted = true) : s.queue = [] := by
  obtain ⟨hq, -⟩ := h.haltConsistent
  exact hq hh

/-- Before the halt no report stands (R203). -/
theorem Inv.diagValid_of_running {s : State} (h : Inv s) (hh : s.halted = false) : s.diagValid = false := by
  obtain ⟨-, hreport⟩ := h.haltConsistent
  refine Bool.eq_false_iff.2 fun hv => ?_
  obtain ⟨hhalted, -⟩ := hreport hv
  exact absurd (hh.symm.trans hhalted) Bool.false_ne_true

theorem Inv.queueOrdered {s : State} (h : Inv s) : QueueOrdered s.queue = true := by
  rcases h.queueLegal with hq | hq | hq
  · exact QueueOrdered.of_suffix hq (decodeQueue_ordered s.ir)
  · rw [hq]; rfl
  · rw [hq]; rfl

theorem Inv.queueSteps_le {s : State} (h : Inv s) : queueSteps s.queue ≤ 5 := by
  rcases h.queueLegal with hq | hq | hq
  · exact Nat.le_trans (queueSteps_le_of_suffix hq) (decodeQueue_steps s.ir)
  · rw [hq]; decide
  · rw [hq]; decide

/-! ## What a micro-op does to the queue and to the halt -/

/-- The micro-ops of R88 to R91 write registers and flags alone. -/
theorem transferReg_registers (dst src : Reg) (zn : Bool) (s : State) :
    ∃ a x y sp f, transferReg dst src zn s = { s with a := a, x := x, y := y, sp := sp, flags := f } := by
  cases dst <;> cases zn <;> exact ⟨_, _, _, _, _, rfl⟩

theorem countReg_registers (r : Reg) (d : Delta) (fs : Reg) (s : State) :
    ∃ a x y sp f, countReg r d fs s = { s with a := a, x := x, y := y, sp := sp, flags := f } := by
  cases r <;> exact ⟨_, _, _, _, _, rfl⟩

theorem takeImm_registers (r : Reg) (zn : Bool) (b : Byte) (s : State) :
    ∃ a x y sp f, takeImm r zn b s = { s with a := a, x := x, y := y, sp := sp, flags := f, pc := s.pc + 1 } := by
  cases r <;> cases zn <;> exact ⟨_, _, _, _, _, rfl⟩

/-- What a micro-op does to the queue, the halt and the diagnostic register. -/
structure MicroControl (m : MicroOp) (s t : State) : Prop where
  queue : ∃ k ≤ m.maxPads, t.queue = s.queue ++ List.replicate k .nop
  halted : t.halted = (s.halted || m.halts)
  diagValid : t.diagValid = (s.diagValid || m == .haltUnknown)
  diagOpcode : t.diagOpcode = if m = .haltUnknown then s.ir else s.diagOpcode

/-- A micro-op other than the halting ones that appends `k` padding micro-ops and leaves the rest of the control state. -/
theorem microControl_of_pads {m : MicroOp} {s t : State} (k : Nat) (hk : k ≤ m.maxPads) (hm : m.halts = false)
    (hq : t.queue = s.queue ++ List.replicate k .nop) (hh : t.halted = s.halted) (hv : t.diagValid = s.diagValid)
    (ho : t.diagOpcode = s.diagOpcode) : MicroControl m s t := by
  have hne : m ≠ .haltUnknown := by
    rintro rfl
    cases hm
  exact ⟨⟨k, hk, hq⟩, by simp [hh, hm], by simp [hv, hne], by simp [ho, hne]⟩

theorem execMicro_control (m : MicroOp) (s : State) : MicroControl m s (execMicro m s) := by
  have hnone : ∀ q : List MicroOp, q = q ++ List.replicate 0 .nop := fun q => (List.append_nil q).symm
  cases m with
  | halt => exact ⟨⟨0, le_rfl, hnone _⟩, (Bool.or_true _).symm, (Bool.or_false _).symm, rfl⟩
  | haltUnknown => exact ⟨⟨0, le_rfl, hnone _⟩, (Bool.or_true _).symm, (Bool.or_true _).symm, rfl⟩
  | pushA | pushP => exact microControl_of_pads 1 le_rfl rfl rfl rfl rfl rfl
  | pullA | pullP => exact microControl_of_pads 2 le_rfl rfl rfl rfl rfl rfl
  | branchTest f b =>
    by_cases h : flagGet f s.flags = b
    · rw [execMicro_branchTest_taken h]
      by_cases hback : 127 < s.t0.toNat
      · exact microControl_of_pads 1 le_rfl rfl (if_pos hback) rfl rfl rfl
      · exact microControl_of_pads 0 (Nat.zero_le _) rfl ((if_neg hback).trans (hnone _)) rfl rfl rfl
    · rw [execMicro_branchTest_notTaken h]
      exact microControl_of_pads 0 (Nat.zero_le _) rfl (hnone _) rfl rfl rfl
  | transfer dst src zn =>
    obtain ⟨a, x, y, sp, f, h⟩ := transferReg_registers dst src zn s
    rw [execMicro, h]
    exact microControl_of_pads 0 le_rfl rfl (hnone _) rfl rfl rfl
  | incDec r d fs =>
    obtain ⟨a, x, y, sp, f, h⟩ := countReg_registers r d fs s
    rw [execMicro, h]
    exact microControl_of_pads 0 le_rfl rfl (hnone _) rfl rfl rfl
  | loadImm r zn =>
    obtain ⟨a, x, y, sp, f, h⟩ := takeImm_registers r zn (streamByte s) s
    rw [execMicro, h]
    exact microControl_of_pads 0 le_rfl rfl (hnone _) rfl rfl rfl
  | _ => exact microControl_of_pads 0 le_rfl rfl (hnone _) rfl rfl rfl

/-! ## The invariant is kept -/

theorem memAfter_wf {m : Memory} (h : m.wf = true) (access : Option Access) : (memAfter access m).wf = true := by
  match access with
  | none => exact h
  | some (.read _) => exact h
  | some (.write addr v) => exact memWrite_wf h addr v

/-- The rest of a legal queue is legal. -/
theorem QueueLegal.tail {s : State} {m : MicroOp} {q : List MicroOp} (h : QueueLegal s) (hq : s.queue = m :: q) :
    q <:+ decodeQueue s.ir ∨ q = [.nop] := by
  rcases h with h | h | h
  · exact .inl (List.IsSuffix.trans (List.suffix_cons m q) (hq ▸ h))
  · rw [hq] at h
    cases h
    exact .inl List.nil_suffix
  · rw [hq] at h
    cases h
    exact .inr rfl

theorem MicroOp.maxPads_le (m : MicroOp) : m.maxPads ≤ 2 := by
  cases m <;> exact Nat.le_of_ble_eq_true rfl

theorem MicroOp.maxPads_of_halts {m : MicroOp} (h : m.halts = true) : m.maxPads = 0 := by
  cases m with
  | halt | haltUnknown => rfl
  | _ => cases h

/-- The rest of the queue stays, and padding comes only when nothing is left; nothing is left and none comes when the micro-op
halts. -/
theorem Inv.queue_after {s : State} (h : Inv s) {m : MicroOp} {q : List MicroOp} (hq : s.queue = m :: q) :
    ∃ k ≤ m.maxPads, (execMicro m (s.withQueue q)).queue = q ++ List.replicate k .nop ∧ (k = 0 ∨ q = []) ∧
      (m.halts = true → k = 0 ∧ q = []) := by
  obtain ⟨k, hk, hqueue⟩ := (execMicro_control m (s.withQueue q)).queue
  obtain ⟨-, hlast, -⟩ := queueOrdered_cons (hq ▸ h.queueOrdered)
  refine ⟨k, hk, hqueue, ?_, fun hhalts => ?_⟩
  · rcases hlast with hnil | ⟨hpads, -⟩
    · exact .inr hnil
    · exact .inl (by omega)
  · have hpads := MicroOp.maxPads_of_halts hhalts
    rcases hlast with hnil | ⟨-, hnot⟩
    · exact ⟨by omega, hnil⟩
    · rw [hhalts] at hnot
      cases hnot

theorem Inv.queueLegal_micro {s : State} (h : Inv s) {m : MicroOp} {q : List MicroOp} (hq : s.queue = m :: q) :
    QueueLegal (execMicro m (s.withQueue q)) := by
  obtain ⟨k, hk, hqueue, hlast, -⟩ := h.queue_after hq
  have hle := m.maxPads_le
  unfold QueueLegal
  rw [hqueue, execMicro_ir]
  rcases hlast with rfl | rfl
  · rw [List.replicate_zero, List.append_nil]
    exact (h.queueLegal.tail hq).imp_right .inl
  · match k with
    | 0 => exact .inl List.nil_suffix
    | 1 => exact .inr (.inl rfl)
    | 2 => exact .inr (.inr rfl)
    | k + 3 => omega

theorem Inv.haltConsistent_micro {s : State} (h : Inv s) (hh : s.halted = false) {m : MicroOp} {q : List MicroOp}
    (hq : s.queue = m :: q) : HaltConsistent (execMicro m (s.withQueue q)) := by
  obtain ⟨k, -, hqueue, -, hend⟩ := h.queue_after hq
  have hc := execMicro_control m (s.withQueue q)
  have hnone := h.diagValid_of_running hh
  refine ⟨fun hhalted => ?_, fun hvalid => ?_⟩
  · obtain ⟨rfl, rfl⟩ := hend (by simpa [hc.halted, hh] using hhalted)
    exact hqueue
  · obtain rfl : m = .haltUnknown := by simpa [hc.diagValid, hnone] using hvalid
    exact ⟨rfl, rfl⟩

/-- The three cases of a step: nothing, a fresh decode list, or the rest of the queue with padding behind it. -/
theorem inv_clockCycle {s : State} (h : Inv s) : Inv (clockCycle s) := by
  have hwf : (clockCycle s).mem.wf = true := clockCycle_mem s ▸ memAfter_wf h.mem_wf (stepAccess s)
  refine ⟨hwf, ?_⟩
  rcases clockCycle_cases s with ⟨-, hs⟩ | ⟨hh, -, hs⟩ | ⟨m, q, hh, hq, hs⟩
  · rw [hs]
    exact ⟨h.queueLegal, h.haltConsistent⟩
  · rw [hs, fetchDecode_eq]
    refine ⟨.inl List.suffix_rfl, fun hhalted => ?_, fun hvalid => ?_⟩
    · exact absurd (hh.symm.trans hhalted) Bool.false_ne_true
    · exact absurd ((h.diagValid_of_running hh).symm.trans hvalid) Bool.false_ne_true
  · rw [hs]
    exact ⟨h.queueLegal_micro hq, h.haltConsistent_micro hh hq⟩

/-- Settles O43, from the three cases of a step. -/
theorem everyStepKeepsInvariant : Obligations.EveryStepKeepsInvariant := by
  unfold Obligations.EveryStepKeepsInvariant
  intro s t h hst
  cases hst
  exact inv_clockCycle h

/-- The invariant at a boundary of a running machine with nothing reported asks for the memory alone. -/
theorem inv_of_boundary {s : State} (hm : s.mem.wf = true) (hq : s.queue = []) (hv : s.diagValid = false) : Inv s := by
  refine ⟨hm, .inl (hq ▸ List.nil_suffix), fun _ => hq, fun hvalid => ?_⟩
  rw [hv] at hvalid
  cases hvalid

/-- Settles O44: every reset stands at a boundary with canonical memory. -/
theorem resetEstablishesInvariant : Obligations.ResetEstablishesInvariant := by
  unfold Obligations.ResetEstablishesInvariant
  exact ⟨fun img => inv_of_boundary (resetMemory_wf img) rfl rfl, inv_of_boundary reset_mem_wf rfl rfl⟩

/-! ## What the invariant gives -/

theorem length_le_queueSteps (q : List MicroOp) : q.length ≤ queueSteps q := by
  induction q with
  | nil => exact le_rfl
  | cons m q ih =>
    rw [List.length_cons, queueSteps]
    omega

theorem wellFormed_of_queueOrdered {q : List MicroOp} (h : QueueOrdered q = true) : ∀ m ∈ q, m.wellFormed = true := by
  induction q with
  | nil => exact fun m hm => absurd hm List.not_mem_nil
  | cons m q ih =>
    obtain ⟨hm, -, hq⟩ := queueOrdered_cons h
    exact List.forall_mem_cons.2 ⟨hm, ih hq⟩

/-- Settles O45: a queue of five steps or fewer has five micro-ops or fewer. -/
theorem queueNeverExceedsItsDepth : Obligations.QueueNeverExceedsItsDepth := by
  unfold Obligations.QueueNeverExceedsItsDepth
  exact fun s h => ⟨Nat.le_trans (length_le_queueSteps s.queue) h.queueSteps_le, wellFormed_of_queueOrdered h.queueOrdered⟩

theorem queueSteps_nops (k : Nat) : queueSteps (List.replicate k .nop) = k := by
  induction k with
  | zero => rfl
  | succ k ih =>
    rw [List.replicate_succ, queueSteps, ih]
    exact Nat.add_comm 1 k

theorem queueSteps_append (q p : List MicroOp) : queueSteps (q ++ p) = queueSteps q + queueSteps p := by
  induction q with
  | nil => exact (Nat.zero_add _).symm
  | cons m q ih =>
    rw [List.cons_append, queueSteps, ih, queueSteps]
    omega

/-- A queue is empty after at most `queueSteps` steps: each step takes a micro-op off and appends no more padding than was counted
for it. The invariant is kept on the way, so a halt leaves the queue empty. -/
theorem boundary_within {n : Nat} {s : State} (h : Inv s) (hn : queueSteps s.queue ≤ n) :
    ∃ k t, k ≤ n ∧ runCycles k s = .next t ∧ t.queue = [] := by
  induction n generalizing s with
  | zero =>
    have hlen := length_le_queueSteps s.queue
    exact ⟨0, s, le_rfl, rfl, List.eq_nil_of_length_eq_zero (by omega)⟩
  | succ n ih =>
    rcases clockCycle_cases s with ⟨hh, -⟩ | ⟨-, hq, -⟩ | ⟨m, q, -, hq, hs⟩
    · exact ⟨0, s, Nat.zero_le _, rfl, h.queue_of_halted hh⟩
    · exact ⟨0, s, Nat.zero_le _, rfl, hq⟩
    · obtain ⟨p, hp, hqueue, -⟩ := h.queue_after hq
      have hless : queueSteps (clockCycle s).queue ≤ n := by
        rw [hq, queueSteps] at hn
        rw [hs, hqueue, queueSteps_append, queueSteps_nops]
        omega
      obtain ⟨k, t, hk, hrun, ht⟩ := ih (inv_clockCycle h) hless
      exact ⟨k + 1, t, Nat.succ_le_succ hk, hrun, ht⟩

/-- Settles O46: no decode list takes more than five steps. -/
theorem boundaryIsReachedWithinFiveSteps : Obligations.BoundaryIsReachedWithinFiveSteps := by
  unfold Obligations.BoundaryIsReachedWithinFiveSteps
  exact fun s h => boundary_within h h.queueSteps_le

/-- Settles O47: a step that halts runs a halting micro-op, which the invariant puts at the end of the queue. -/
theorem onlyHaltMicroOpsHalt : Obligations.OnlyHaltMicroOpsHalt := by
  unfold Obligations.OnlyHaltMicroOpsHalt
  intro s t h hh hst ht
  cases hst
  rcases clockCycle_cases s with ⟨hh', -⟩ | ⟨-, -, hs⟩ | ⟨m, q, -, hq, hs⟩
  · exact absurd (hh.symm.trans hh') Bool.false_ne_true
  · rw [hs] at ht
    exact absurd (hh.symm.trans ht) Bool.false_ne_true
  · rw [hs] at ht ⊢
    obtain ⟨_, -, -, -, hend⟩ := h.queue_after hq
    have hhalts : m.halts = true := by simpa [(execMicro_control m (s.withQueue q)).halted, hh] using ht
    obtain ⟨-, rfl⟩ := hend hhalts
    cases m with
    | halt => exact .inl ⟨hq, rfl⟩
    | haltUnknown => exact .inr ⟨hq, rfl⟩
    | _ => cases hhalts

/-- Settles O48: before the halt nothing is reported, HLT does not report, and the unknown opcode reports itself. -/
theorem haltCauseIsReadable : Obligations.HaltCauseIsReadable := by
  unfold Obligations.HaltCauseIsReadable
  intro s h
  refine ⟨fun t hf ht => ?_, fun op t hh hq hd ht => ?_⟩
  · obtain ⟨-, -, -, hrule⟩ := haltInstruction
    obtain ⟨-, -, hrun, -⟩ := hrule s hf
    cases ht.symm.trans hrun
    simp [runStatus, h.diagValid_of_running hf.halted_eq]
  · obtain ⟨-, hrun⟩ := unknownOpcodeHaltsAndReports s op hh hq hd
    cases ht.symm.trans hrun
    rfl

/-! ## The overflow flag -/

/-- A legal micro-op other than `PullP` does not set V: the flags of a result do not name V, and of the flag micro-ops the legal one
that names V clears it. -/
theorem execMicro_flagV {m : MicroOp} (hm : m.wellFormed = true) (hne : m ≠ .pullP) (s : State)
    (hv : (execMicro m s).flags.v = true) : s.flags.v = true := by
  cases m with
  | pullP => exact absurd rfl hne
  | setFlag f b =>
    cases f with
    | v =>
      cases b with
      | false => cases hv
      | true => cases hm
    | _ => exact hv
  | transfer dst src zn => cases dst <;> cases zn <;> exact hv
  | incDec r d fs => cases r <;> exact hv
  | loadImm r zn => cases r <;> cases zn <;> exact hv
  | branchTest f b =>
    by_cases h : flagGet f s.flags = b
    · rwa [execMicro_branchTest_taken h] at hv
    · rwa [execMicro_branchTest_notTaken h] at hv
  | _ => exact hv

/-- Settles O49: the micro-op at the head of the queue is a legal one, and the fetch and the halt leave the flags alone. -/
theorem overflowSetOnlyByPull : Obligations.OverflowSetOnlyByPull := by
  unfold Obligations.OverflowSetOnlyByPull
  intro s t h hst hv ht
  cases hst
  rcases clockCycle_cases s with ⟨-, hs⟩ | ⟨-, -, hs⟩ | ⟨m, q, -, hq, hs⟩
  · rw [hs, hv] at ht
    cases ht
  · rw [hs] at ht
    exact absurd (hv.symm.trans ht) Bool.false_ne_true
  · rw [hs] at ht
    obtain ⟨hm, -⟩ := queueOrdered_cons (hq ▸ h.queueOrdered)
    by_cases hne : m = .pullP
    · exact ⟨q, hne ▸ hq⟩
    · exact absurd (hv.symm.trans (execMicro_flagV hm hne (s.withQueue q) ht)) Bool.false_ne_true

end Sys2Proof.Machine
end

section
/-! What a step depends on (spec/10_state.md R22, R24, R28, spec/20_memory.md R47, spec/40_scheduler_microops.md R114, R115), and the
host's loop (spec/70_reset_and_hazards.md R229). Each kind of independence is said once of a micro-op, then of a step. -/

namespace Sys2Proof.Machine

/-! ## Memory is written and read at the one access -/

/-- Settles O50, from what a step does to memory. -/
theorem stepWritesOnlyItsAccess : Obligations.StepWritesOnlyItsAccess := by
  unfold Obligations.StepWritesOnlyItsAccess
  intro s t hst
  cases hst
  rw [clockCycle_mem]
  refine ⟨fun addr v h => by rw [h, memAfter_write], fun h => ?_⟩
  match hacc : stepAccess s with
  | none => rfl
  | some (.read _) => rfl
  | some (.write addr v) => exact absurd hacc (h addr v)

theorem takeImm_withMem (r : Reg) (zn : Bool) (b : Byte) (s : State) (m : Memory) :
    takeImm r zn b (s.withMem m) = (takeImm r zn b s).withMem m := by
  cases r <;> cases zn <;> rfl

/-- With another memory that has the byte that is read, a micro-op does the same and makes its access to that memory. -/
theorem execMicro_withMem (u : MicroOp) (s : State) (m : Memory)
    (h : ∀ addr, microAccess u s = some (.read addr) → memRead m addr = memRead s.mem addr) :
    execMicro u (s.withMem m) = (execMicro u s).withMem (memAfter (microAccess u s) m) := by
  cases u with
  | transfer dst src zn => cases dst <;> cases src <;> cases zn <;> rfl
  | incDec r d fs => cases r <;> cases fs <;> rfl
  | storeZp r | storeAbs r => cases r <;> rfl
  | branchTest f b =>
    by_cases hb : flagGet f s.flags = b
    · rw [execMicro_branchTest_taken hb]
      exact execMicro_branchTest_taken hb
    · rw [execMicro_branchTest_notTaken hb]
      exact execMicro_branchTest_notTaken hb
  | loadImm r zn =>
    exact (takeImm_withMem r zn _ s m).trans (congrArg (fun v => (takeImm r zn v s).withMem m) (h _ rfl))
  | fetchLo => exact congrArg (fun v => (takeLo v s).withMem m) (h _ rfl)
  | fetchHi => exact congrArg (fun v => (takeHi v s).withMem m) (h _ rfl)
  | fetchHiNoInc => exact congrArg (fun v => (takeHiNoInc v s).withMem m) (h _ rfl)
  | fetchHiJump => exact congrArg (fun v => (takeHiJump v s).withMem m) (h _ rfl)
  | loadZpA | loadAbsA => exact congrArg (fun v => (loadA v s).withMem m) (h _ rfl)
  | pullA => exact congrArg (fun v => (padQueue 2 (loadA v (raiseSp s))).withMem m) (h _ rfl)
  | pullP => exact congrArg (fun v => (padQueue 2 ((raiseSp s).withFlags (fromByte v))).withMem m) (h _ rfl)
  | pullLo => exact congrArg (fun v => ((raiseSp s).withT0 v).withMem m) (h _ rfl)
  | pullHi => exact congrArg (fun v => ((raiseSp s).withT1 v).withMem m) (h _ rfl)
  | _ => rfl

theorem clockCycle_withMem (s : State) (m : Memory)
    (h : ∀ addr, stepAccess s = some (.read addr) → memRead m addr = memRead s.mem addr) :
    clockCycle (s.withMem m) = (clockCycle s).withMem (memAfter (stepAccess s) m) := by
  rcases clockCycle_cases s with ⟨hh, hs⟩ | ⟨hh, hq, hs⟩ | ⟨u, q, hh, hq, hs⟩
  · rw [hs, stepAccess_halted hh, clockCycle_halted (s := s.withMem m) hh]
    rfl
  · have hread : memRead m s.pc = memRead s.mem s.pc := h s.pc (stepAccess_fetch hh hq)
    rw [hs, stepAccess_fetch hh hq, clockCycle_fetch (s := s.withMem m) hh hq, fetchDecode_eq, fetchDecode_eq]
    simp only [State.withMem, hread, memAfter_read]
  · have hacc := stepAccess_micro hh hq
    rw [hacc] at h ⊢
    rw [hs, clockCycle_micro (s := s.withMem m) hh hq]
    have hmicro := execMicro_withMem u (s.withQueue q) m
    rw [microAccess_withQueue] at hmicro
    exact hmicro h

/-- Settles O51: the other step differs in the memory it leaves and in nothing else. -/
theorem stepReadsOnlyItsAccess : Obligations.StepReadsOnlyItsAccess := by
  unfold Obligations.StepReadsOnlyItsAccess
  intro s m h
  refine ⟨_, _, rfl, rfl, ?_⟩
  have hstep := clockCycle_withMem s m h
  unfold State.withMem at hstep
  rw [hstep]

/-! ## The hidden registers -/

/-- Does the micro-op use `T[0]` as it was? -/
def MicroOp.readsT0 : MicroOp → Bool
  | .storeZp _ | .loadZpA | .storeAbs _ | .loadAbsA | .branchTest _ _ | .fetchHiJump | .jumpT | .returnT => true
  | _ => false

def MicroOp.writesT0 : MicroOp → Bool
  | .fetchLo | .pullLo => true
  | _ => false

/-- Does the micro-op use `T[1]` as it was? -/
def MicroOp.readsT1 : MicroOp → Bool
  | .storeAbs _ | .loadAbsA | .jumpT | .returnT => true
  | _ => false

def MicroOp.writesT1 : MicroOp → Bool
  | .fetchHi | .fetchHiNoInc | .fetchHiJump | .pullHi => true
  | _ => false

/-- Is a scratch byte read by the queue before the queue writes it? -/
def Live (reads writes : MicroOp → Bool) : List MicroOp → Bool
  | [] => false
  | m :: q => reads m || (!writes m && Live reads writes q)

/-- The values `ir`, `t0`, `t1` stand for those of `s` wherever the queue of `s` still looks at them. -/
structure HiddenAgree (s : State) (ir t0 t1 : Byte) : Prop where
  ir : s.queue ≠ [] → ir = s.ir
  t0 : Live MicroOp.readsT0 MicroOp.writesT0 s.queue = true → t0 = s.t0
  t1 : Live MicroOp.readsT1 MicroOp.writesT1 s.queue = true → t1 = s.t1

/-- No decode list looks at a scratch byte that it has not written (R115). -/
theorem decodeQueue_not_live (op : Byte) : Live MicroOp.readsT0 MicroOp.writesT0 (decodeQueue op) = false ∧
    Live MicroOp.readsT1 MicroOp.writesT1 (decodeQueue op) = false := by
  rcases decodeQueue_cases op with ⟨i, h⟩ | h
  · rw [h]
    cases i <;> exact ⟨rfl, rfl⟩
  · rw [h]
    exact ⟨rfl, rfl⟩

theorem live_append_nops {reads writes : MicroOp → Bool} (h : reads .nop = false) (q : List MicroOp) (k : Nat) :
    Live reads writes (q ++ List.replicate k .nop) = Live reads writes q := by
  induction q with
  | nil =>
    induction k with
    | zero => rfl
    | succ k ih => simpa [List.replicate_succ, Live, h] using fun _ => ih
  | cons m q ih => rw [List.cons_append, Live, ih, Live]

/-- A micro-op with other scratch bytes does the same, as long as those it reads are as they were. -/
theorem execMicro_withT {m : MicroOp} {s : State} {t0 t1 : Byte} (h0 : m.readsT0 = true → t0 = s.t0)
    (h1 : m.readsT1 = true → t1 = s.t1) :
    execMicro m { s with t0 := t0, t1 := t1 } =
      { execMicro m s with t0 := if m.writesT0 then (execMicro m s).t0 else t0,
                           t1 := if m.writesT1 then (execMicro m s).t1 else t1 } := by
  cases m with
  | transfer dst src zn => cases dst <;> cases src <;> cases zn <;> rfl
  | incDec r d fs => cases r <;> cases fs <;> rfl
  | loadImm r zn => cases r <;> cases zn <;> rfl
  | storeZp r =>
    obtain rfl := h0 rfl
    cases r <;> rfl
  | storeAbs r =>
    obtain rfl := h0 rfl
    obtain rfl := h1 rfl
    cases r <;> rfl
  | loadAbsA | jumpT | returnT =>
    obtain rfl := h0 rfl
    obtain rfl := h1 rfl
    rfl
  | loadZpA | fetchHiJump =>
    obtain rfl := h0 rfl
    rfl
  | branchTest f b =>
    obtain rfl := h0 rfl
    by_cases hb : flagGet f s.flags = b
    · rw [execMicro_branchTest_taken hb]
      exact execMicro_branchTest_taken hb
    · rw [execMicro_branchTest_notTaken hb]
      exact execMicro_branchTest_notTaken hb
  | _ => rfl

/-- A micro-op leaves a scratch byte that it does not write (R113). -/
theorem execMicro_keeps_t (m : MicroOp) (s : State) : (m.writesT0 = false → (execMicro m s).t0 = s.t0) ∧
    (m.writesT1 = false → (execMicro m s).t1 = s.t1) := by
  cases m with
  | transfer dst src zn => cases dst <;> cases zn <;> exact ⟨fun _ => rfl, fun _ => rfl⟩
  | incDec r d fs => cases r <;> exact ⟨fun _ => rfl, fun _ => rfl⟩
  | loadImm r zn => cases r <;> cases zn <;> exact ⟨fun _ => rfl, fun _ => rfl⟩
  | fetchLo | pullLo => exact ⟨fun h => (nomatch h), fun _ => rfl⟩
  | fetchHi | fetchHiNoInc | fetchHiJump | pullHi => exact ⟨fun _ => rfl, fun h => (nomatch h)⟩
  | branchTest f b =>
    simp only [execMicro, branchIf_eq, padQueue_eq]
    split <;> exact ⟨fun _ => rfl, fun _ => rfl⟩
  | _ => exact ⟨fun _ => rfl, fun _ => rfl⟩

/-- A step keeps the agreement: the fetch makes `IR` the same and looks at no scratch byte, and a micro-op writes a scratch byte alike
or leaves it to be as it was. -/
theorem clockCycle_hidden {s : State} {ir t0 t1 : Byte} (h : HiddenAgree s ir t0 t1) :
    ∃ ir' t0' t1', clockCycle { s with ir := ir, t0 := t0, t1 := t1 } = { clockCycle s with ir := ir', t0 := t0', t1 := t1' } ∧
      HiddenAgree (clockCycle s) ir' t0' t1' := by
  rcases clockCycle_cases s with ⟨hh, hs⟩ | ⟨hh, hq, hs⟩ | ⟨m, q, hh, hq, hs⟩
  · rw [hs]
    exact ⟨ir, t0, t1, clockCycle_halted hh, h⟩
  · obtain ⟨hlive0, hlive1⟩ := decodeQueue_not_live (memRead s.mem s.pc)
    rw [hs]
    refine ⟨memRead s.mem s.pc, t0, t1, clockCycle_fetch hh hq, fun _ => rfl, fun hl => ?_, fun hl => ?_⟩
    · exact absurd (hlive0.symm.trans hl) Bool.false_ne_true
    · exact absurd (hlive1.symm.trans hl) Bool.false_ne_true
  · obtain rfl := h.ir (by simp [hq])
    have h0 := h.t0
    have h1 := h.t1
    rw [hq] at h0 h1
    obtain ⟨hkeep0, hkeep1⟩ := execMicro_keeps_t m (s.withQueue q)
    obtain ⟨k, -, hqueue⟩ := (execMicro_control m (s.withQueue q)).queue
    have hmicro : execMicro m { s.withQueue q with t0 := t0, t1 := t1 } = _ :=
      execMicro_withT (fun hr => h0 (by simp [Live, hr])) (fun hr => h1 (by simp [Live, hr]))
    rw [hs]
    refine ⟨(execMicro m (s.withQueue q)).ir, if m.writesT0 then (execMicro m (s.withQueue q)).t0 else t0,
      if m.writesT1 then (execMicro m (s.withQueue q)).t1 else t1, ?_, ?_, fun hl => ?_, fun hl => ?_⟩
    · rw [clockCycle_micro (s := { s with t0 := t0, t1 := t1 }) hh hq]
      exact hmicro
    · exact fun _ => rfl
    · rw [hqueue, live_append_nops rfl] at hl
      cases hw : m.writesT0 with
      | true => rfl
      | false => exact (h0 (by simpa [Live, hw] using .inr hl)).trans (hkeep0 hw).symm
    · rw [hqueue, live_append_nops rfl] at hl
      cases hw : m.writesT1 with
      | true => rfl
      | false => exact (h1 (by simpa [Live, hw] using .inr hl)).trans (hkeep1 hw).symm

theorem runCycles_hidden (n : Nat) {s : State} {ir t0 t1 : Byte} (h : HiddenAgree s ir t0 t1) :
    ∃ t ir' t0' t1', runCycles n s = .next t ∧
      runCycles n { s with ir := ir, t0 := t0, t1 := t1 } = .next { t with ir := ir', t0 := t0', t1 := t1' } := by
  induction n generalizing s ir t0 t1 with
  | zero => exact ⟨s, ir, t0, t1, rfl, rfl⟩
  | succ n ih =>
    obtain ⟨ir', t0', t1', hstep, hagree⟩ := clockCycle_hidden h
    rw [runCycles_succ, runCycles_succ, hstep]
    exact ih hagree

/-- Settles O53: with an empty queue nothing hidden is looked at, and the host sees all but the hidden registers. -/
theorem scratchAndOpcodeRegisterAreHidden : Obligations.ScratchAndOpcodeRegisterAreHidden := by
  unfold Obligations.ScratchAndOpcodeRegisterAreHidden
  intro s ir t0 t1 n hq
  have hagree : HiddenAgree s ir t0 t1 :=
    ⟨fun h => absurd hq h, fun h => by simp [hq, Live] at h, fun h => by simp [hq, Live] at h⟩
  obtain ⟨t, ir', t0', t1', ht, hu⟩ := runCycles_hidden n hagree
  exact ⟨t, _, ht, hu, rfl, fun _ => rfl⟩

/-! ## The flags I and D -/

/-- Other values of I and D. -/
def State.withID (s : State) (i d : Bool) : State := { s with flags := { s.flags with i := i, d := d } }

/-- A legal micro-op other than `PushP` does the same whatever I and D are (R28): no legal branch tests them. -/
theorem execMicro_withID {m : MicroOp} (hm : m.wellFormed = true) (hne : m ≠ .pushP) (s : State) (i d : Bool) :
    ∃ i' d', execMicro m (s.withID i d) = (execMicro m s).withID i' d' := by
  cases m with
  | pushP => exact absurd rfl hne
  | setFlag f b => cases f <;> exact ⟨_, _, rfl⟩
  | transfer dst src zn => cases dst <;> cases src <;> cases zn <;> exact ⟨_, _, rfl⟩
  | incDec r d fs => cases r <;> cases fs <;> exact ⟨_, _, rfl⟩
  | loadImm r zn => cases r <;> cases zn <;> exact ⟨_, _, rfl⟩
  | storeZp r | storeAbs r => cases r <;> exact ⟨_, _, rfl⟩
  | branchTest f b =>
    have hflag : flagGet f { s.flags with i := i, d := d } = flagGet f s.flags := by
      cases f with
      | i | d => cases hm
      | _ => rfl
    refine ⟨i, d, ?_⟩
    by_cases hb : flagGet f s.flags = b
    · rw [execMicro_branchTest_taken hb]
      exact execMicro_branchTest_taken (hflag.trans hb)
    · rw [execMicro_branchTest_notTaken hb]
      exact execMicro_branchTest_notTaken (hflag ▸ hb)
  | _ => exact ⟨_, _, rfl⟩

theorem clockCycle_withID {s : State} (h : Inv s) (hne : s.queue.head? ≠ some .pushP) (i d : Bool) :
    ∃ i' d', clockCycle (s.withID i d) = (clockCycle s).withID i' d' := by
  rcases clockCycle_cases s with ⟨hh, hs⟩ | ⟨hh, hq, hs⟩ | ⟨m, q, hh, hq, hs⟩
  · rw [hs]
    exact ⟨i, d, clockCycle_halted hh⟩
  · rw [hs]
    exact ⟨i, d, clockCycle_fetch hh hq⟩
  · obtain ⟨hm, -⟩ := queueOrdered_cons (hq ▸ h.queueOrdered)
    have hpush : m ≠ .pushP := fun he => hne (by rw [hq, he]; rfl)
    obtain ⟨i', d', hmicro⟩ := execMicro_withID hm hpush (s.withQueue q) i d
    rw [hs]
    exact ⟨i', d', Eq.trans (clockCycle_micro hh hq) hmicro⟩

/-- Settles O55: the fetch and the halt leave the flags alone, and the micro-op at the head of the queue is a legal one. -/
theorem interruptAndDecimalFlagsChangeNothing : Obligations.InterruptAndDecimalFlagsChangeNothing := by
  unfold Obligations.InterruptAndDecimalFlagsChangeNothing
  intro s i d h hne
  obtain ⟨i', d', hu⟩ := clockCycle_withID h hne i d
  exact ⟨clockCycle s, (clockCycle s).withID i' d', rfl, congrArg Host.Outcome.next hu, rfl⟩

/-! ## The host's loop -/

theorem hostLoop_halted {s : State} (h : s.halted = true) (n : Nat) : hostLoop n s = (s, 0) := by
  cases n with
  | zero => rfl
  | succ n => rw [hostLoop, if_pos h]

theorem hostLoop_succ {s : State} (h : s.halted = false) (n : Nat) :
    hostLoop (n + 1) s = ((hostLoop n (clockCycle s)).1, (hostLoop n (clockCycle s)).2 + 1) := by
  rw [hostLoop, if_neg (by simp [h])]

/-- The loop is as many clock cycles as it counts. -/
theorem runCycles_hostLoop (n : Nat) (s : State) : runCycles (hostLoop n s).2 s = .next (hostLoop n s).1 := by
  induction n generalizing s with
  | zero => rfl
  | succ n ih =>
    cases hh : s.halted with
    | true => rw [hostLoop_halted hh, runCycles_zero]
    | false => rw [hostLoop_succ hh, runCycles_succ, ih]

/-- Once the loop has seen the halt, more fuel is not used. -/
theorem hostLoop_add {n : Nat} {s : State} (h : (hostLoop n s).1.halted = true) (k : Nat) : hostLoop (n + k) s = hostLoop n s := by
  induction n generalizing s with
  | zero => rw [Nat.zero_add, hostLoop_halted (s := s) h, hostLoop]
  | succ n ih =>
    cases hh : s.halted with
    | true => rw [hostLoop_halted hh, hostLoop_halted hh]
    | false =>
      rw [hostLoop_succ hh] at h
      rw [Nat.succ_add, hostLoop_succ hh, hostLoop_succ hh, ih h]

/-- Settles O54: the state of the loop's end is halted, so further cycles leave it. -/
theorem hostLoopEndsAtTheHalt : Obligations.HostLoopEndsAtTheHalt := by
  unfold Obligations.HostLoopEndsAtTheHalt
  intro n k s h
  have hrun := runCycles_hostLoop n s
  exact ⟨hostLoop_add h k, hrun, (runCycles_add hrun k).trans (runCycles_halted h k)⟩

end Sys2Proof.Machine
end
